-- ==== Sys2Proof/Word.lean ====
section
/-! DEFINITION. The value types of the machine (00_scope.md R12): everything is an unsigned bit
vector of a fixed width, numbered from bit 0 at the least significant end. -/

namespace Sys2Proof

/-- A byte: a general register, a timer, one memory location (10_state.md R20, R32, R36). -/
abbrev Byte := BitVec 8

/-- A 16-bit word: `PC`, `I`, a return address, an instruction word (10_state.md R23, R25, R30). -/
abbrev Word := BitVec 16

/-- A nibble, "a 4-bit half-byte" (00_scope.md R16). -/
abbrev Nibble := BitVec 4

/-- A 12-bit address constant, the `NNN` run (30_encoding.md R74). -/
abbrev Addr12 := BitVec 12

end Sys2Proof
end

