-- ==== Sys2Proof/Syntax.lean ====
section
/-! DEFINITION. The instructions, one constructor per row of 30_encoding.md R80 in the table's order,
and the operations of the host (60_exceptions.md R290).

The operand types are the ranges of 30_encoding.md R74, so that no instruction with an operand outside
its field can be written: `x` and `y` are register indices 0..15, `k` is a 12-bit address, an 8-bit
byte or a 4-bit count. -/

namespace Sys2Proof

/-- A register index `0..15` (10_state.md R20, 30_encoding.md R74). -/
abbrev Reg := Fin 16

/-- The register `VF`, "general register AND implicit flag output" (10_state.md R22). -/
abbrev Reg.VF : Reg := 15

/-- The register `V0`, which `BNNN` reads implicitly (42_control_flow.md R148). -/
abbrev Reg.V0 : Reg := 0

/-- The 39 encodings that the decoder recognises (30_encoding.md R80). -/
inductive Instr where
  /-- `00E0` CLS, 41_display.md R123. -/
  | cls
  /-- `00EE` RET, 42_control_flow.md R141. -/
  | ret
  /-- `1NNN` JP nnn, 42_control_flow.md R142. -/
  | jp (k : Addr12)
  /-- `2NNN` CALL nnn, 42_control_flow.md R143. -/
  | call (k : Addr12)
  /-- `3XNN` SE Vx, kk, 42_control_flow.md R144. -/
  | seImm (x : Reg) (k : Byte)
  /-- `4XNN` SNE Vx, kk, 42_control_flow.md R145. -/
  | sneImm (x : Reg) (k : Byte)
  /-- `5XY0` SE Vx, Vy, 42_control_flow.md R146. -/
  | seReg (x y : Reg)
  /-- `6XNN` LD Vx, kk, 43_alu.md R171. -/
  | ldImm (x : Reg) (k : Byte)
  /-- `7XNN` ADD Vx, kk, 43_alu.md R172. -/
  | addImm (x : Reg) (k : Byte)
  /-- `8XY0` LD Vx, Vy, 43_alu.md R173. -/
  | ldReg (x y : Reg)
  /-- `8XY1` OR Vx, Vy, 43_alu.md R174. -/
  | orReg (x y : Reg)
  /-- `8XY2` AND Vx, Vy, 43_alu.md R175. -/
  | andReg (x y : Reg)
  /-- `8XY3` XOR Vx, Vy, 43_alu.md R176. -/
  | xorReg (x y : Reg)
  /-- `8XY4` ADD Vx, Vy, 43_alu.md R177. -/
  | addReg (x y : Reg)
  /-- `8XY5` SUB Vx, Vy, 43_alu.md R178. -/
  | subReg (x y : Reg)
  /-- `8XY6` SHR Vx, Vy, 43_alu.md R179. -/
  | shr (x y : Reg)
  /-- `8XY7` SUBN Vx, Vy, 43_alu.md R180. -/
  | subn (x y : Reg)
  /-- `8XYE` SHL Vx, Vy, 43_alu.md R181. -/
  | shl (x y : Reg)
  /-- `9XY0` SNE Vx, Vy, 42_control_flow.md R147. -/
  | sneReg (x y : Reg)
  /-- `ANNN` LD I, nnn, 44_index_memory.md R200. -/
  | ldI (k : Addr12)
  /-- `BNNN` JP V0, nnn, 42_control_flow.md R148. -/
  | jpV0 (k : Addr12)
  /-- `CXNN` RND Vx, kk, 43_alu.md R182. -/
  | rnd (x : Reg) (k : Byte)
  /-- `DXYN` DRW Vx, Vy, n, 41_display.md R124. -/
  | drw (x y : Reg) (k : Nibble)
  /-- `EX9E` SKP Vx, 45_keyboard.md R231. -/
  | skp (x : Reg)
  /-- `EXA1` SKNP Vx, 45_keyboard.md R232. -/
  | sknp (x : Reg)
  /-- `FX07` LD Vx, DT, 46_timers.md R250. -/
  | ldVxDt (x : Reg)
  /-- `FX0A` LD Vx, K, 45_keyboard.md R233. -/
  | ldVxK (x : Reg)
  /-- `FX15` LD DT, Vx, 46_timers.md R251. -/
  | ldDtVx (x : Reg)
  /-- `FX18` LD ST, Vx, 46_timers.md R252. -/
  | ldStVx (x : Reg)
  /-- `FX1E` ADD I, Vx, 44_index_memory.md R201. -/
  | addI (x : Reg)
  /-- `FX29` LD F, Vx, 44_index_memory.md R202. -/
  | ldF (x : Reg)
  /-- `FX33` LD B, Vx, 44_index_memory.md R203. -/
  | ldB (x : Reg)
  /-- `FX55` LD [I], Vx, 44_index_memory.md R204. -/
  | storeRegs (x : Reg)
  /-- `FX65` LD Vx, [I], 44_index_memory.md R205. -/
  | loadRegs (x : Reg)
  /-- `00CN` SCD n, declared and not implemented, 41_display.md R125. -/
  | scd (k : Nibble)
  /-- `00FB` SCR, declared and not implemented, 41_display.md R126. -/
  | scr
  /-- `00FC` SCL, declared and not implemented, 41_display.md R127. -/
  | scl
  /-- `00FE` LOW, declared and not implemented, 41_display.md R128. -/
  | low
  /-- `00FF` HIGH, declared and not implemented, 41_display.md R129. -/
  | high
  deriving DecidableEq, Repr

/-- The operations of the host, each one atomic transition (60_exceptions.md R290). `k` and `origin`
are what the host passes, unchecked; WellFormed.lean says which the interface takes. -/
inductive HostOp where
  /-- `STEP`: one instruction cycle, 40_execution_cycle.md R101. -/
  | step
  /-- `TICK`: decrement both timers, 60_exceptions.md R281. -/
  | tick
  /-- `DEC_DT`: decrement the delay timer alone, 60_exceptions.md R281. -/
  | decDt
  /-- `DEC_ST`: decrement the sound timer alone, 60_exceptions.md R281. -/
  | decSt
  /-- `KEY_DOWN(k)`, 60_exceptions.md R284. -/
  | keyDown (k : Nat)
  /-- `KEY_UP(k)`, 60_exceptions.md R284. -/
  | keyUp (k : Nat)
  /-- `RESET`, 70_reset_and_hazards.md R310. -/
  | reset
  /-- `LOAD(image, origin)`, 70_reset_and_hazards.md R312; with no origin given it is the default
  `LOAD_ORIGIN`. -/
  | load (image : List Byte) (origin : Option Nat)
  deriving DecidableEq, Repr

end Sys2Proof
end

