-- ==== Sys2Proof/Decode.lean ====
section
/-! DEFINITION. Instruction encoding (30_encoding.md): formats, the opcode table, the decoder, and the
encoder written from the same table. -/

namespace Sys2Proof

/-! ### Words and fields (30_encoding.md R70, R71, R74; 20_memory.md R53) -/

/-- The instruction word of two bytes: the byte at the lower address is the more significant
(20_memory.md R53). -/
def wordOfBytes (first second : Byte) : Word := first ++ second

/-- The byte of an instruction word that lies at the lower address. -/
def firstByte (op : Word) : Byte := op.extractLsb' 8 8

/-- The byte of an instruction word that lies at the higher address. -/
def secondByte (op : Word) : Byte := op.extractLsb' 0 8

/-- Nibble `op[15:12]`, format position 0 (30_encoding.md R71). -/
def nib3 (op : Word) : Nibble := op.extractLsb' 12 4

/-- Nibble `op[11:8]`, format position 1. -/
def nib2 (op : Word) : Nibble := op.extractLsb' 8 4

/-- Nibble `op[7:4]`, format position 2. -/
def nib1 (op : Word) : Nibble := op.extractLsb' 4 4

/-- Nibble `op[3:0]`, format position 3. -/
def nib0 (op : Word) : Nibble := op.extractLsb' 0 4

/-- The register that a nibble names. -/
def regOfNibble (n : Nibble) : Reg := n.toFin

/-- The nibble that names a register. -/
def nibbleOfReg (r : Reg) : Nibble := BitVec.ofFin r

/-- The operand `x = op[11:8]` (30_encoding.md R74). -/
def fieldX (op : Word) : Reg := regOfNibble (nib2 op)

/-- The operand `y = op[7:4]` (30_encoding.md R74). -/
def fieldY (op : Word) : Reg := regOfNibble (nib1 op)

/-- The constant of an `NNN` run, `k = op[11:0]` (30_encoding.md R74). -/
def fieldNNN (op : Word) : Addr12 := op.extractLsb' 0 12

/-- The constant of an `NN` run, `k = op[7:0]` (30_encoding.md R74). -/
def fieldNN (op : Word) : Byte := op.extractLsb' 0 8

/-- The constant of an `N` run, `k = op[3:0]` (30_encoding.md R74). -/
def fieldN (op : Word) : Nibble := op.extractLsb' 0 4

/-! ### Formats (30_encoding.md R72) -/

/-- One character of a format string: a fixed hexadecimal digit, a register placeholder or a
constant-nibble marker (30_encoding.md R72). -/
inductive FormatChar where
  | digit (d : Nibble)
  | X
  | Y
  | N
  deriving DecidableEq, Repr

/-- Whether a nibble of the word matches one character: a fixed digit matches itself alone, a
placeholder matches every nibble. -/
def FormatChar.accepts : FormatChar → Nibble → Bool
  | .digit d, n => n == d
  | .X, _ => true
  | .Y, _ => true
  | .N, _ => true

/-- The character's nibble of the mask: `0xF` in a fixed position, `0x0` elsewhere. -/
def FormatChar.maskNibble : FormatChar → Nibble
  | .digit _ => 0xF
  | .X => 0
  | .Y => 0
  | .N => 0

/-- The character's nibble of the match: the digit in a fixed position, `0` elsewhere. -/
def FormatChar.matchNibble : FormatChar → Nibble
  | .digit d => d
  | .X => 0
  | .Y => 0
  | .N => 0

/-- A format string of four characters, left to right (30_encoding.md R72). -/
structure Format where
  c3 : FormatChar
  c2 : FormatChar
  c1 : FormatChar
  c0 : FormatChar
  deriving DecidableEq, Repr

/-- "every fixed-digit position of the format matches the corresponding nibble of the opcode"
(30_encoding.md R72). -/
def Format.accepts (f : Format) (op : Word) : Bool :=
  f.c3.accepts (nib3 op) && f.c2.accepts (nib2 op) && f.c1.accepts (nib1 op) && f.c0.accepts (nib0 op)

/-- Four nibbles as a word, the first the most significant. -/
def wordOfNibbles (n3 n2 n1 n0 : Nibble) : Word := n3 ++ n2 ++ n1 ++ n0

/-- The format's `mask` (30_encoding.md R72). -/
def Format.mask (f : Format) : Word :=
  wordOfNibbles f.c3.maskNibble f.c2.maskNibble f.c1.maskNibble f.c0.maskNibble

/-- The format's `match` (30_encoding.md R72). -/
def Format.pattern (f : Format) : Word :=
  wordOfNibbles f.c3.matchNibble f.c2.matchNibble f.c1.matchNibble f.c0.matchNibble

/-! ### The opcode table (30_encoding.md R80) -/

/-- A row of the opcode table: its format string, and its instruction with the operands taken from
the word (30_encoding.md R73, R74). -/
structure Row where
  format : Format
  build  : Word → Instr

/-- The format `dNNN` (30_encoding.md R76). -/
def Format.nnn (d : Nibble) : Format := ⟨.digit d, .N, .N, .N⟩

/-- The format `dXNN`. -/
def Format.xnn (d : Nibble) : Format := ⟨.digit d, .X, .N, .N⟩

/-- The format `dXYe`. -/
def Format.xy (d e : Nibble) : Format := ⟨.digit d, .X, .Y, .digit e⟩

/-- The format `dXef`. -/
def Format.x (d e f : Nibble) : Format := ⟨.digit d, .X, .digit e, .digit f⟩

/-- The format `00ef`. -/
def Format.fixed (e f : Nibble) : Format := ⟨.digit 0, .digit 0, .digit e, .digit f⟩

/-- Rows 1 to 9 of 30_encoding.md R80. -/
def rows1 : List Row := [
  ⟨.fixed 0xE 0x0, fun _ => .cls⟩,
  ⟨.fixed 0xE 0xE, fun _ => .ret⟩,
  ⟨.nnn 0x1, fun op => .jp (fieldNNN op)⟩,
  ⟨.nnn 0x2, fun op => .call (fieldNNN op)⟩,
  ⟨.xnn 0x3, fun op => .seImm (fieldX op) (fieldNN op)⟩,
  ⟨.xnn 0x4, fun op => .sneImm (fieldX op) (fieldNN op)⟩,
  ⟨.xy 0x5 0x0, fun op => .seReg (fieldX op) (fieldY op)⟩,
  ⟨.xnn 0x6, fun op => .ldImm (fieldX op) (fieldNN op)⟩,
  ⟨.xnn 0x7, fun op => .addImm (fieldX op) (fieldNN op)⟩]

/-- Rows 10 to 19 of 30_encoding.md R80. -/
def rows2 : List Row := [
  ⟨.xy 0x8 0x0, fun op => .ldReg (fieldX op) (fieldY op)⟩,
  ⟨.xy 0x8 0x1, fun op => .orReg (fieldX op) (fieldY op)⟩,
  ⟨.xy 0x8 0x2, fun op => .andReg (fieldX op) (fieldY op)⟩,
  ⟨.xy 0x8 0x3, fun op => .xorReg (fieldX op) (fieldY op)⟩,
  ⟨.xy 0x8 0x4, fun op => .addReg (fieldX op) (fieldY op)⟩,
  ⟨.xy 0x8 0x5, fun op => .subReg (fieldX op) (fieldY op)⟩,
  ⟨.xy 0x8 0x6, fun op => .shr (fieldX op) (fieldY op)⟩,
  ⟨.xy 0x8 0x7, fun op => .subn (fieldX op) (fieldY op)⟩,
  ⟨.xy 0x8 0xE, fun op => .shl (fieldX op) (fieldY op)⟩,
  ⟨.xy 0x9 0x0, fun op => .sneReg (fieldX op) (fieldY op)⟩]

/-- Rows 20 to 34 of 30_encoding.md R80. -/
def rows3 : List Row := [
  ⟨.nnn 0xA, fun op => .ldI (fieldNNN op)⟩,
  ⟨.nnn 0xB, fun op => .jpV0 (fieldNNN op)⟩,
  ⟨.xnn 0xC, fun op => .rnd (fieldX op) (fieldNN op)⟩,
  ⟨⟨.digit 0xD, .X, .Y, .N⟩, fun op => .drw (fieldX op) (fieldY op) (fieldN op)⟩,
  ⟨.x 0xE 0x9 0xE, fun op => .skp (fieldX op)⟩,
  ⟨.x 0xE 0xA 0x1, fun op => .sknp (fieldX op)⟩,
  ⟨.x 0xF 0x0 0x7, fun op => .ldVxDt (fieldX op)⟩,
  ⟨.x 0xF 0x0 0xA, fun op => .ldVxK (fieldX op)⟩,
  ⟨.x 0xF 0x1 0x5, fun op => .ldDtVx (fieldX op)⟩,
  ⟨.x 0xF 0x1 0x8, fun op => .ldStVx (fieldX op)⟩,
  ⟨.x 0xF 0x1 0xE, fun op => .addI (fieldX op)⟩,
  ⟨.x 0xF 0x2 0x9, fun op => .ldF (fieldX op)⟩,
  ⟨.x 0xF 0x3 0x3, fun op => .ldB (fieldX op)⟩,
  ⟨.x 0xF 0x5 0x5, fun op => .storeRegs (fieldX op)⟩,
  ⟨.x 0xF 0x6 0x5, fun op => .loadRegs (fieldX op)⟩]

/-- Rows 35 to 39 of 30_encoding.md R80, declared and not implemented (R82). -/
def rows4 : List Row := [
  ⟨⟨.digit 0, .digit 0, .digit 0xC, .N⟩, fun op => .scd (fieldN op)⟩,
  ⟨.fixed 0xF 0xB, fun _ => .scr⟩,
  ⟨.fixed 0xF 0xC, fun _ => .scl⟩,
  ⟨.fixed 0xF 0xE, fun _ => .low⟩,
  ⟨.fixed 0xF 0xF, fun _ => .high⟩]

/-- The complete table of 30_encoding.md R80, in its order. -/
def rows : List Row := rows1 ++ rows2 ++ rows3 ++ rows4

/-! ### The decoder (30_encoding.md R77) -/

/-- Why a word is no instruction (30_encoding.md R77). -/
inductive DecodeError where
  /-- No format matches: any word of 30_encoding.md R81. -/
  | unknownInstruction
  /-- More than one format matches: no word does (30_encoding.md R79; log 23). -/
  | ambiguousOpcode
  deriving DecidableEq, Repr

/-- The rows whose format matches the word: "every format that validates against the opcode". -/
def matchingRows (op : Word) : List Row := rows.filter (fun r => r.format.accepts op)

/-- The decoder: "Exactly one match is required: zero matches is an 'unknown instruction' error; more
than one match is an 'ambiguous opcode' error" (30_encoding.md R77). It is a function of the word alone
(R78). -/
def decode (op : Word) : Except DecodeError Instr :=
  match matchingRows op with
  | [] => .error .unknownInstruction
  | [r] => .ok (r.build op)
  | _ :: _ :: _ => .error .ambiguousOpcode

/-- The decoder on the two bytes of an instruction as memory holds them, lower address first. -/
def decodeBytes (first second : Byte) : Except DecodeError Instr := decode (wordOfBytes first second)

/-- What the decoder reads from an instruction whose bits are `w`, numbered as spec/opcode_table.json
numbers them: one 16-bit word, bit 15 the most significant, of which `nbits` are given and the rest
are 0. The word goes to the decoder as memory holds it, its more significant byte first. -/
def decodeTableWord (nbits w : Nat) : Option Instr :=
  let op : Word := BitVec.ofNat 16 (w % 2 ^ nbits)
  match decodeBytes (firstByte op) (secondByte op) with
  | .ok i => some i
  | .error _ => none

/-! ### The encoder (30_encoding.md R76, R80) -/

/-- A word of format `dNNN`. -/
def wordNNN (d : Nibble) (k : Addr12) : Word := d ++ k

/-- A word of format `dXNN`. -/
def wordXNN (d : Nibble) (x : Reg) (k : Byte) : Word := d ++ nibbleOfReg x ++ k

/-- A word of format `dXYn`. -/
def wordXYN (d : Nibble) (x y : Reg) (n : Nibble) : Word := wordOfNibbles d (nibbleOfReg x) (nibbleOfReg y) n

/-- The word of an instruction, from the format of its row (30_encoding.md R80). -/
def encode : Instr → Word
  | .cls => 0x00E0
  | .ret => 0x00EE
  | .jp k => wordNNN 0x1 k
  | .call k => wordNNN 0x2 k
  | .seImm x k => wordXNN 0x3 x k
  | .sneImm x k => wordXNN 0x4 x k
  | .seReg x y => wordXYN 0x5 x y 0x0
  | .ldImm x k => wordXNN 0x6 x k
  | .addImm x k => wordXNN 0x7 x k
  | .ldReg x y => wordXYN 0x8 x y 0x0
  | .orReg x y => wordXYN 0x8 x y 0x1
  | .andReg x y => wordXYN 0x8 x y 0x2
  | .xorReg x y => wordXYN 0x8 x y 0x3
  | .addReg x y => wordXYN 0x8 x y 0x4
  | .subReg x y => wordXYN 0x8 x y 0x5
  | .shr x y => wordXYN 0x8 x y 0x6
  | .subn x y => wordXYN 0x8 x y 0x7
  | .shl x y => wordXYN 0x8 x y 0xE
  | .sneReg x y => wordXYN 0x9 x y 0x0
  | .ldI k => wordNNN 0xA k
  | .jpV0 k => wordNNN 0xB k
  | .rnd x k => wordXNN 0xC x k
  | .drw x y k => wordXYN 0xD x y k
  | .skp x => wordXNN 0xE x 0x9E
  | .sknp x => wordXNN 0xE x 0xA1
  | .ldVxDt x => wordXNN 0xF x 0x07
  | .ldVxK x => wordXNN 0xF x 0x0A
  | .ldDtVx x => wordXNN 0xF x 0x15
  | .ldStVx x => wordXNN 0xF x 0x18
  | .addI x => wordXNN 0xF x 0x1E
  | .ldF x => wordXNN 0xF x 0x29
  | .ldB x => wordXNN 0xF x 0x33
  | .storeRegs x => wordXNN 0xF x 0x55
  | .loadRegs x => wordXNN 0xF x 0x65
  | .scd k => wordOfNibbles 0x0 0x0 0xC k
  | .scr => 0x00FB
  | .scl => 0x00FC
  | .low => 0x00FE
  | .high => 0x00FF

end Sys2Proof
end

