-- ==== Sys2Proof/Config.lean ====
section
/-! DEFINITION. What an implementation fixes (00_scope.md R10): the parameters, each with its legal
values and its default, and the free values, which no rule of the spec decides. -/

namespace Sys2Proof

/-- `STACK_DEPTH`: an integer at least 1, or `UNBOUNDED` (10_state.md R31). -/
inductive StackDepth where
  | bounded (n : Nat)
  | unbounded
  deriving DecidableEq, Repr

/-- `SHIFT_SOURCE`: the register that `8XY6` and `8XYE` shift (43_alu.md R179, R181). -/
inductive ShiftSource where
  | vx
  | vy
  deriving DecidableEq, Repr

/-- `BCD_MODE`: what `FX33` stores for a digit (44_index_memory.md R203). -/
inductive BcdMode where
  | fontAddress
  | rawDigit
  deriving DecidableEq, Repr

/-- `FONT_INDEX_POLICY`: `FX29` with a register value above 15 (44_index_memory.md R202). -/
inductive FontIndexPolicy where
  | fault
  | lowNibble
  | multiply
  deriving DecidableEq, Repr

/-- `KEY_INDEX_POLICY`: `EX9E` and `EXA1` with a register value above 15 (45_keyboard.md R230). -/
inductive KeyIndexPolicy where
  | fault
  | lowNibble
  deriving DecidableEq, Repr

/-- `KEY_SELECT`: which pressed key `FX0A` takes (45_keyboard.md R234). -/
inductive KeySelect where
  | lowestIndex
  | anyPressed
  deriving DecidableEq, Repr

/-- The parameters of 00_scope.md R10. They are "fixed at machine construction" and retained across
reset; no instruction changes them (10_state.md R43). -/
structure Config where
  memSize         : Nat
  loadOrigin      : Nat
  compatMode      : Bool
  stackDepth      : StackDepth
  shiftSource     : ShiftSource
  bcdMode         : BcdMode
  font            : Vector Byte 80
  fontIndexPolicy : FontIndexPolicy
  keyIndexPolicy  : KeyIndexPolicy
  keySelect       : KeySelect
  deriving DecidableEq, Repr

/-- The conventional glyphs, the default `FONT` of 10_state.md R36: digit `d`, row `r` at `5 * d + r`.
PRESUMED (log 7): the spec takes these bytes from general knowledge. A statement about them is about
the default parameter only. -/
def defaultFont : Vector Byte 80 := #v[
  0xF0, 0x90, 0x90, 0x90, 0xF0,   0x20, 0x60, 0x20, 0x20, 0x70,
  0xF0, 0x10, 0xF0, 0x80, 0xF0,   0xF0, 0x10, 0xF0, 0x10, 0xF0,
  0x90, 0x90, 0xF0, 0x10, 0x10,   0xF0, 0x80, 0xF0, 0x10, 0xF0,
  0xF0, 0x80, 0xF0, 0x90, 0xF0,   0xF0, 0x10, 0x20, 0x40, 0x40,
  0xF0, 0x90, 0xF0, 0x90, 0xF0,   0xF0, 0x90, 0xF0, 0x10, 0xF0,
  0xF0, 0x90, 0xF0, 0x90, 0x90,   0xE0, 0x90, 0xE0, 0x90, 0xE0,
  0xF0, 0x80, 0x80, 0x80, 0xF0,   0xE0, 0x90, 0x90, 0x90, 0xE0,
  0xF0, 0x80, 0xF0, 0x80, 0xF0,   0xF0, 0x80, 0xF0, 0x80, 0x80]

/-- The defaults of 00_scope.md R10. -/
def Config.default : Config where
  memSize         := 4096
  loadOrigin      := 0x200
  compatMode      := false
  stackDepth      := .bounded 16
  shiftSource     := .vx
  bcdMode         := .fontAddress
  font            := defaultFont
  fontIndexPolicy := .fault
  keyIndexPolicy  := .fault
  keySelect       := .lowestIndex

/-- FREE VALUE (log 1). The byte of the `n`-th draw of `RandomByte()`: "a fresh draw in 0..255 per
execution, under no law" (93_implementation_defined.md U1, D18). Nothing constrains it. -/
opaque Config.freeByte : Nat → Byte

/-- FREE VALUE (log 2). The choice of the `n`-th draw among the pressed keys under
`KEY_SELECT = ANY_PRESSED` (45_keyboard.md R234, U14). Nothing constrains it. -/
opaque Config.freeChoice : Nat → Nat

end Sys2Proof
end

