-- ==== Sys2Proof/Machine/State.lean ====
section
/-! DEFINITION. The state of the machine as plain data (10_state.md), its reset value (R46), and the
reasons a step or an operation of the host can stop. -/

namespace Sys2Proof.Machine

/-- The fault kinds of 60_exceptions.md R271. The spec describes what a fault does (R272): it latches
`(kind, pc, opcode)` in the state and changes nothing else, so a step that faults answers a NEXT state
with the latch set, and no step of this model ends in the outcome `fault` (log 5). Each constructor says
who latches it; latching is safe, since the machine then does exactly what R272 says. -/
inductive Fault where
  /-- Code 1. Latched by a step whose word matches no row (30_encoding.md R81). Safe. -/
  | unknownInstruction
  /-- Code 2. For a word that matches two rows; there is none (30_encoding.md R79). Safe. -/
  | ambiguousOpcode
  /-- Code 3. Latched by `00CN`, `00FB`, `00FC`, `00FE`, `00FF` (41_display.md R125 to R129). Safe. -/
  | notImplemented
  /-- Code 4. Latched by `00EE` on an empty stack (42_control_flow.md R141). Safe. -/
  | stackUnderflow
  /-- Code 5. Latched by `2NNN` on a full stack (42_control_flow.md R143). Safe. -/
  | stackOverflow
  /-- Code 6. Latched by `FX29` with `V[x] > 15` under `FONT_INDEX_POLICY = FAULT`
  (44_index_memory.md R202). Safe. -/
  | fontIndex
  /-- Code 7. Latched by `EX9E` and `EXA1` with `V[x] > 15` under `KEY_INDEX_POLICY = FAULT`
  (45_keyboard.md R230). Safe. -/
  | keyIndex
  /-- Code 8. Latched by a step with `PC = MEM_SIZE - 1` (20_memory.md R54). Safe. -/
  | fetchStraddle
  /-- Code 9. A timer set outside 0..255: no instruction can, its operand is a byte (10_state.md R33;
  log 23). Safe. -/
  | timerRange
  /-- Code 10. A pixel written with a value other than 0 and 1: none can be, a pixel is a `Bool`
  (41_display.md R120; log 23). Safe. -/
  | invalidPixel
  /-- Code 11. A malformed format string: the table is fixed (00_scope.md R8; log 23). Safe. -/
  | malformedFormat
  deriving DecidableEq, Repr

/-- Why an operation of the host is refused. No step is refused. -/
inductive Refusal where
  /-- An instruction without a meaning in this model; every instruction has one, so `exec` never
  answers with it. Safe. -/
  | notModelled (mnemonic : String)
  /-- Construction with a parameter outside its legal values (93_implementation_defined.md U17); answered
  by `construct` alone (log 11). Safe. -/
  | illegalConfiguration
  /-- `KEY_DOWN` or `KEY_UP` with an index outside 0..15: "refused at the interface"
  (60_exceptions.md R284, D31). Safe. -/
  | noSuchKey (k : Nat)
  /-- `LOAD` of an image that does not fit: "refused: the host operation has no effect"
  (70_reset_and_hazards.md R314, D19). Safe. -/
  | imageDoesNotFit
  deriving DecidableEq, Repr

/-- What a fault records (10_state.md R42): its kind, the `PC` of the instruction that faulted and its
opcode, 0 when the fault arose before a fetch. -/
structure FaultRecord where
  kind   : Fault
  pc     : Word
  opcode : Word
  deriving DecidableEq, Repr

/-- The screen: 32 rows of 64 single-bit pixels (10_state.md R35), row first. -/
abbrev Screen := Vector (Vector Bool 64) 32

/-- The blank screen: "all 0". -/
def Screen.blank : Screen := Vector.replicate 32 (Vector.replicate 64 false)

/-- Memory: the bytes that differ from what reset leaves there, as pairs of address and byte with the
addresses strictly rising; `Memory.wf` in Ops.lean states the form (log 8). -/
abbrev Memory := List Host.Cell

/-- The state: the tuple of 10_state.md and the configuration of 00_scope.md R10. -/
structure State where
  /-- The configuration, which no operation changes (10_state.md R43; log 4). -/
  cfg    : Config
  /-- `V0`..`VF` (10_state.md R20). -/
  v      : Vector Byte 16
  /-- The address register (10_state.md R23). -/
  i      : Word
  /-- The program counter: during an instruction, the address of its first byte (10_state.md R25). -/
  pc     : Word
  /-- The return stack, its top first (10_state.md R30). -/
  stack  : List Word
  /-- The delay timer (10_state.md R32). -/
  dt     : Byte
  /-- The sound timer (10_state.md R32). -/
  st     : Byte
  /-- The memory (10_state.md R36, 20_memory.md R50). -/
  mem    : Memory
  /-- The framebuffer (10_state.md R35). -/
  screen : Screen
  /-- `Keys[k]` is true when key `k` is down (10_state.md R34). -/
  keys   : Vector Bool 16
  /-- `Block`, the wait state of `FX0A` (10_state.md R40). -/
  block  : Bool
  /-- The exit latch (10_state.md R41); the code is a natural number (log 15). -/
  exit   : Option Nat
  /-- The fault latch (10_state.md R42). -/
  fault  : Option FaultRecord
  /-- The MODEL's own counter of the draws made so far, which feeds the free values of Config.lean
  (log 3). -/
  draws  : Nat
  deriving DecidableEq, Repr

/-- A newly constructed machine with configuration `c` (70_reset_and_hazards.md R311): all keys up, every
other element at the reset value of 10_state.md R46. The memory lists nothing, so that it reads as the
font in `0..79` and as zero above. The zeros are the spec's own choice D14 (log 6). -/
def State.constructed (c : Config) : State where
  cfg    := c
  v      := Vector.replicate 16 0
  i      := 0
  pc     := BitVec.ofNat 16 c.loadOrigin
  stack  := []
  dt     := 0
  st     := 0
  mem    := []
  screen := Screen.blank
  keys   := Vector.replicate 16 false
  block  := false
  exit   := none
  fault  := none
  draws  := 0

/-- The machine right after reset, with the default parameters of 00_scope.md R10 (log 4). -/
def State.reset : State := State.constructed Config.default

end Sys2Proof.Machine
end

