-- ==== Sys2Proof/Machine/Ops.lean ====
section
/-! DEFINITION. The named operations over the state: registers, memory, the return stack, the timers,
latching a fault, and what RESET leaves. Every reader and writer of a piece of state goes through
them. -/

namespace Sys2Proof

/-- What `Mem[a]` holds after reset and before anything is written there: the font in `0..79`, zero
above it (10_state.md R46, 70_reset_and_hazards.md R310). It is what an address that the memory list does
not name reads as (log 8). -/
def Config.resetByte (c : Config) (a : Nat) : Byte :=
  if h : a < 80 then c.font[a] else 0

end Sys2Proof

namespace Sys2Proof.Machine

/-- What a meaning answers. -/
abbrev Result := Host.Outcome State Fault Refusal

/-! ### Registers -/

/-- `V[r]` (00_scope.md R13). -/
def State.reg (s : State) (r : Reg) : Byte := s.v[r.val]

/-- `V[r] <- b` (00_scope.md R13, 10_state.md R21). No register is hard-wired (R20). -/
def State.setReg (s : State) (r : Reg) (b : Byte) : State := { s with v := s.v.set r.val b }

/-- `I <- w`. -/
def State.setI (s : State) (w : Word) : State := { s with i := w }

/-- `PC <- w`. -/
def State.setPc (s : State) (w : Word) : State := { s with pc := w }

/-- `DT <- b`. -/
def State.setDt (s : State) (b : Byte) : State := { s with dt := b }

/-- `ST <- b`. -/
def State.setSt (s : State) (b : Byte) : State := { s with st := b }

/-- The screen as a whole. -/
def State.setScreen (s : State) (g : Screen) : State := { s with screen := g }

/-- `Keys[k] <- b`, a host operation's write (60_exceptions.md R284). -/
def State.setKey (s : State) (k : Fin 16) (b : Bool) : State := { s with keys := s.keys.set k.val b }

/-- `Keys[k]` (00_scope.md R14). -/
def State.key (s : State) (k : Fin 16) : Bool := s.keys[k.val]

/-- `Block <- b`. -/
def State.setBlock (s : State) (b : Bool) : State := { s with block := b }

/-- `Exit <- code`. -/
def State.setExit (s : State) (code : Nat) : State := { s with exit := some code }

/-- One more draw has been made (log 3). -/
def State.countDraw (s : State) : State := { s with draws := s.draws + 1 }

/-- A skip: `PC <- PC + 4` when the condition holds, else `PC <- PC + 2` (42_control_flow.md R149). -/
def State.skipIf (s : State) (cond : Bool) : State := s.setPc (s.pc + if cond then 4 else 2)

/-- All sixteen indices in rising order, of registers or of keys. -/
def indices16 : List (Fin 16) := [0, 1, 2, 3, 4, 5, 6, 7, 8, 9, 10, 11, 12, 13, 14, 15]

/-- The registers `V0..Vx` in rising order, which `FX55` and `FX65` move. -/
def regsUpTo (x : Reg) : List Reg := indices16.filter (fun r => decide (r ≤ x))

/-! ### Memory (20_memory.md) -/

/-- One byte of the memory list: the listed byte, or what reset leaves at that address. -/
def Memory.read (c : Config) (m : Memory) (a : Nat) : Byte :=
  match m with
  | [] => c.resetByte a
  | (b, v) :: rest => if a = b then v else Memory.read c rest a

/-- Write one byte of the memory list and keep its form: rising addresses, no entry equal to what its
address reads as when unlisted. -/
def Memory.write (c : Config) (m : Memory) (a : Nat) (v : Byte) : Memory :=
  match m with
  | [] => if v = c.resetByte a then [] else [(a, v)]
  | (b, w) :: rest =>
    if b < a then (b, w) :: Memory.write c rest a v
    else if b = a then (if v = c.resetByte a then rest else (a, v) :: rest)
    else (if v = c.resetByte a then (b, w) :: rest else (a, v) :: (b, w) :: rest)

/-- The canonical form of the memory list: the addresses rise strictly and lie below `MEM_SIZE`, and no
entry equals what its address reads as when unlisted. -/
def Memory.wf (c : Config) (m : Memory) : Bool :=
  match m with
  | [] => true
  | (a, v) :: rest =>
    decide (a < c.memSize) && decide (v ≠ c.resetByte a)
      && rest.all (fun cell => decide (a < cell.1)) && Memory.wf c rest

/-- `MemRead(a, 1)`: the byte at `a mod MEM_SIZE`, `a` the exact integer (20_memory.md R51). -/
def State.memRead (s : State) (a : Nat) : Byte := Memory.read s.cfg s.mem (a % s.cfg.memSize)

/-- `MemWrite(a, 1, b)`: the byte at `a mod MEM_SIZE` (20_memory.md R51). -/
def State.memWrite (s : State) (a : Nat) (b : Byte) : State :=
  { s with mem := Memory.write s.cfg s.mem (a % s.cfg.memSize) b }

/-- Successive bytes written from address `a` on, in order, each address reduced separately
(20_memory.md R51, R57). -/
def State.memWriteAll (s : State) (a : Nat) : List Byte → State
  | [] => s
  | b :: bs => (s.memWrite a b).memWriteAll (a + 1) bs

/-- `Fetch(PC)`: the word at `PC` and `PC + 1`, big-endian (20_memory.md R53, 40_execution_cycle.md R102). -/
def State.fetchWord (s : State) : Word :=
  wordOfBytes (s.memRead s.pc.toNat) (s.memRead (s.pc.toNat + 1))

/-- Registers loaded from the bytes at `a + r`, in the order of the list (44_index_memory.md R205). -/
def State.loadRegsFrom (s : State) (a : Nat) : List Reg → State
  | [] => s
  | r :: rs => (s.setReg r (s.memRead (a + r.val))).loadRegsFrom a rs

/-! ### The return stack (10_state.md R30, R31) -/

/-- Whether the stack holds `STACK_DEPTH` entries, so that a push faults (10_state.md R31). -/
def State.stackFull (s : State) : Bool :=
  match s.cfg.stackDepth with
  | .bounded n => decide (n ≤ s.stack.length)
  | .unbounded => false

/-- `Push(a)` on a stack that is not full. -/
def State.push (s : State) (a : Word) : State := { s with stack := a :: s.stack }

/-- The stack replaced, as a pop leaves it. -/
def State.setStack (s : State) (st : List Word) : State := { s with stack := st }

/-! ### Timers (10_state.md R32, 60_exceptions.md R281) -/

/-- One decrement, clamped at zero. -/
def decrement (b : Byte) : Byte := if 0 < b then b - 1 else 0

/-! ### Faults and reset -/

/-- The code of a fault kind (60_exceptions.md R271, D34). -/
def Fault.code : Fault → Nat
  | .unknownInstruction => 1
  | .ambiguousOpcode => 2
  | .notImplemented => 3
  | .stackUnderflow => 4
  | .stackOverflow => 5
  | .fontIndex => 6
  | .keyIndex => 7
  | .fetchStraddle => 8
  | .timerRange => 9
  | .invalidPixel => 10
  | .malformedFormat => 11

/-- `raise Fault(kind)` by the instruction whose word is `op` (00_scope.md R14; 60_exceptions.md R272): the
latch is set to the kind, the `PC` of the step and the word, and nothing else changes. There is no vector,
no handler and no saved state (R274). -/
def State.raise (s : State) (kind : Fault) (op : Word) : State :=
  { s with fault := some ⟨kind, s.pc, op⟩ }

/-- What `RESET` leaves (70_reset_and_hazards.md R310), the only way out of a latched fault besides LOAD
(60_exceptions.md R272, R275): every element at its reset value but the keys and the configuration, which
are kept. The model's own count of draws goes on, so that draws after a reset are fresh (log 3). -/
def State.afterReset (s : State) : State :=
  { State.constructed s.cfg with keys := s.keys, draws := s.draws }

end Sys2Proof.Machine
end

