-- ==== Sys2Proof/Machine/Flags.lean ====
section
/-! DEFINITION. Every flag computation of the spec (43_alu.md R170, R183; 41_display.md R124). The only flag
is `VF` (10_state.md R27). -/

namespace Sys2Proof.Machine

/-- A flag as the byte written to `VF`: 1 or 0. -/
def flagByte (b : Bool) : Byte := if b then 1 else 0

/-- The carry of `8XY4`: the sum exceeds 255 (43_alu.md R177). -/
def carryOut (a b : Byte) : Bool := decide (255 < a.toNat + b.toNat)

/-- The flag of `a - b`: 1 when `a ≥ b`, no borrow (43_alu.md R178, R180). -/
def notBorrow (a b : Byte) : Bool := decide (b.toNat ≤ a.toNat)

/-- The bit that a right shift by one shifts out: bit 0 (43_alu.md R179). -/
def lowBitOut (a : Byte) : Bool := a.getLsbD 0

/-- The bit that a left shift by one shifts out: bit 7 (43_alu.md R181). -/
def highBitOut (a : Byte) : Bool := a.getLsbD 7

/-- The result is written to `V[x]`, then the flag to `VF`, so that with `x = 0xF` the final `VF` is the
flag (43_alu.md R170, D6; log 12). -/
def State.writeResultFlag (s : State) (x : Reg) (result : Byte) (flag : Bool) : State :=
  (s.setReg x result).setReg Reg.VF (flagByte flag)

end Sys2Proof.Machine
end

