-- ==== Sys2Proof/Machine/Operands.lean ====
section
/-! DEFINITION. Operand forms: key indices, the font address, the shift source, decimal digits, the draws
of free values, and the data address. -/

namespace Sys2Proof.Machine

/-- The address of the `j`-th byte of an operand at `I`: `(I + j) mod MEM_SIZE`, the sum exact
(20_memory.md R51; 44_index_memory.md, opening). -/
def State.dataAddr (s : State) (j : Nat) : Nat := (s.i.toNat + j) % s.cfg.memSize

/-- `KeyIndex(v)` (45_keyboard.md R230). -/
def keyIndex (policy : KeyIndexPolicy) (v : Byte) : Except Fault (Fin 16) :=
  if h : v.toNat < 16 then .ok ⟨v.toNat, h⟩
  else match policy with
    | .fault => .error .keyIndex
    | .lowNibble => .ok (Fin.ofNat 16 v.toNat)

/-- `FontAddr(d) = 5·d` (10_state.md R37). -/
def fontAddr (d : Nat) : Nat := 5 * d

/-- The address that `FX29` puts into `I` for the register value `v` (44_index_memory.md R202). -/
def charAddress (policy : FontIndexPolicy) (v : Byte) : Except Fault Word :=
  if v.toNat ≤ 15 then .ok (BitVec.ofNat 16 (fontAddr v.toNat))
  else match policy with
    | .fault => .error .fontIndex
    | .lowNibble => .ok (BitVec.ofNat 16 (fontAddr (v.toNat % 16)))
    | .multiply => .ok (BitVec.ofNat 16 (5 * v.toNat))

/-- The operand of a shift (43_alu.md R179, R181): `V[x]` in place, or `V[y]`. -/
def State.shiftOperand (s : State) (x y : Reg) : Byte :=
  match s.cfg.shiftSource with
  | .vx => s.reg x
  | .vy => s.reg y

/-- The bytes that `FX33` stores for the register value `v`, hundreds first (44_index_memory.md R203): each
digit's font address, or the digit itself. -/
def bcdBytes (mode : BcdMode) (v : Byte) : List Byte :=
  let digits := [v.toNat / 100, v.toNat / 10 % 10, v.toNat % 10]
  match mode with
  | .fontAddress => digits.map (fun d => BitVec.ofNat 8 (fontAddr d))
  | .rawDigit => digits.map (fun d => BitVec.ofNat 8 d)

/-- The byte of the next draw of `RandomByte()`: a free value (log 1). -/
def State.randomByte (s : State) : Byte := Config.freeByte s.draws

/-- The keys that are down, in rising order (10_state.md R34). -/
def State.pressedKeys (s : State) : List (Fin 16) := indices16.filter (fun k => s.key k)

/-- The key of `pressed`, which is `first` and then `rest`, that a free choice picks: any of them
(45_keyboard.md R234, `ANY_PRESSED`; log 2). -/
def pickKey (choice : Nat) (first : Fin 16) (rest : List (Fin 16)) : Fin 16 :=
  (first :: rest).getD (choice % (first :: rest).length) first

/-- `FirstPressed()` (45_keyboard.md R234): no key, or the key and the state after the draw that chose
it. `LOWEST_INDEX` takes the lowest and draws nothing; `ANY_PRESSED` draws among the pressed keys. -/
def State.firstPressed (s : State) : Option (Fin 16 × State) :=
  match s.pressedKeys with
  | [] => none
  | k :: ks =>
    match s.cfg.keySelect with
    | .lowestIndex => some (k, s)
    | .anyPressed => some (pickKey (Config.freeChoice s.draws) k ks, s.countDraw)

end Sys2Proof.Machine
end

