-- ==== Sys2Proof/Machine/Alu.lean ====
section
/-! DEFINITION. The register and arithmetic instructions (43_alu.md). The operands are read first, then the
result is written, then the flag (R170); sums and differences are modulo 256 (R183). -/

namespace Sys2Proof.Machine

/-- `LD Vx, kk` (43_alu.md R171). -/
def execLdImm (x : Reg) (k : Byte) (s : State) : Result := .next (s.setReg x k)

/-- `ADD Vx, kk`: no flag (43_alu.md R172). -/
def execAddImm (x : Reg) (k : Byte) (s : State) : Result := .next (s.setReg x (s.reg x + k))

/-- `LD Vx, Vy` (43_alu.md R173). -/
def execLdReg (x y : Reg) (s : State) : Result := .next (s.setReg x (s.reg y))

/-- `OR Vx, Vy`: no flag (43_alu.md R174). -/
def execOrReg (x y : Reg) (s : State) : Result := .next (s.setReg x (s.reg x ||| s.reg y))

/-- `AND Vx, Vy`: no flag (43_alu.md R175). -/
def execAndReg (x y : Reg) (s : State) : Result := .next (s.setReg x (s.reg x &&& s.reg y))

/-- `XOR Vx, Vy`: no flag (43_alu.md R176). -/
def execXorReg (x y : Reg) (s : State) : Result := .next (s.setReg x (s.reg x ^^^ s.reg y))

/-- `ADD Vx, Vy` with carry (43_alu.md R177). -/
def execAddReg (x y : Reg) (s : State) : Result :=
  .next (s.writeResultFlag x (s.reg x + s.reg y) (carryOut (s.reg x) (s.reg y)))

/-- `SUB Vx, Vy` (43_alu.md R178). -/
def execSubReg (x y : Reg) (s : State) : Result :=
  .next (s.writeResultFlag x (s.reg x - s.reg y) (notBorrow (s.reg x) (s.reg y)))

/-- `SHR Vx [, Vy]` (43_alu.md R179). -/
def execShr (x y : Reg) (s : State) : Result :=
  .next (s.writeResultFlag x (s.shiftOperand x y >>> 1) (lowBitOut (s.shiftOperand x y)))

/-- `SUBN Vx, Vy`: `V[y] - V[x]` into `V[x]` (43_alu.md R180). -/
def execSubn (x y : Reg) (s : State) : Result :=
  .next (s.writeResultFlag x (s.reg y - s.reg x) (notBorrow (s.reg y) (s.reg x)))

/-- `SHL Vx [, Vy]` (43_alu.md R181). -/
def execShl (x y : Reg) (s : State) : Result :=
  .next (s.writeResultFlag x (s.shiftOperand x y <<< 1) (highBitOut (s.shiftOperand x y)))

/-- `RND Vx, kk`: the draw masked by `k` (43_alu.md R182); the byte is a free value (log 1). -/
def execRnd (x : Reg) (k : Byte) (s : State) : Result :=
  .next (s.countDraw.setReg x (s.randomByte &&& k))

end Sys2Proof.Machine
end

