-- ==== Sys2Proof/Machine/Control.lean ====
section
/-! DEFINITION. The control-transfer instructions (42_control_flow.md). Each is jump-style: it sets `PC` and
the machine does not advance it (40_execution_cycle.md R104). -/

namespace Sys2Proof.Machine

/-- `RET`: pops the stack into `PC`, or latches STACK_UNDERFLOW (42_control_flow.md R141). -/
def execRet (s : State) : Result :=
  match s.stack with
  | [] => .next (s.raise .stackUnderflow (encode .ret))
  | top :: rest => .next ((s.setStack rest).setPc top)

/-- `JP nnn`: `PC <- k` (42_control_flow.md R142). -/
def execJp (k : Addr12) (s : State) : Result := .next (s.setPc (k.setWidth 16))

/-- `CALL nnn`: latches STACK_OVERFLOW on a full stack, else pushes `PC + 2` and jumps
(42_control_flow.md R143). -/
def execCall (k : Addr12) (s : State) : Result :=
  if s.stackFull then .next (s.raise .stackOverflow (encode (.call k)))
  else .next ((s.push (s.pc + 2)).setPc (k.setWidth 16))

/-- `SE Vx, kk` (42_control_flow.md R144). -/
def execSeImm (x : Reg) (k : Byte) (s : State) : Result := .next (s.skipIf (s.reg x == k))

/-- `SNE Vx, kk` (42_control_flow.md R145). -/
def execSneImm (x : Reg) (k : Byte) (s : State) : Result := .next (s.skipIf (s.reg x != k))

/-- `SE Vx, Vy` (42_control_flow.md R146). -/
def execSeReg (x y : Reg) (s : State) : Result := .next (s.skipIf (s.reg x == s.reg y))

/-- `SNE Vx, Vy` (42_control_flow.md R147). -/
def execSneReg (x y : Reg) (s : State) : Result := .next (s.skipIf (s.reg x != s.reg y))

/-- `JP V0, nnn`: `PC <- V[0] + k`, at most 0x10FE, so that the 16-bit sum is exact
(42_control_flow.md R148). -/
def execJpV0 (k : Addr12) (s : State) : Result :=
  .next (s.setPc ((s.reg Reg.V0).setWidth 16 + k.setWidth 16))

end Sys2Proof.Machine
end

