-- ==== Sys2Proof/Machine/Display.lean ====
section
/-! DEFINITION. The screen's primitives and the display instructions (41_display.md). -/

namespace Sys2Proof.Machine

/-- `Pixel(r, c)`, the coordinates reduced modulo 32 and 64 (00_scope.md R14, 41_display.md R120). -/
def Screen.pixel (g : Screen) (r c : Nat) : Bool :=
  (g[r % 32]'(Nat.mod_lt _ (by decide)))[c % 64]'(Nat.mod_lt _ (by decide))

/-- One pixel replaced, the coordinates reduced modulo 32 and 64. -/
def Screen.put (g : Screen) (r c : Nat) (b : Bool) : Screen :=
  g.set (r % 32) ((g[r % 32]'(Nat.mod_lt _ (by decide))).set (c % 64) b (Nat.mod_lt _ (by decide)))
    (Nat.mod_lt _ (by decide))

/-- `SetPixel(r, c, b)` (41_display.md R120): the new value is old XOR `b`; the second part is the
collision, "true iff old was 1 and new is 0". -/
def setPixel (g : Screen) (r c : Nat) (b : Bool) : Screen × Bool :=
  let old := g.pixel r c
  let new := Bool.xor old b
  (g.put r c new, old && !new)

/-- The column offsets of a sprite row. -/
def columns8 : List Nat := [0, 1, 2, 3, 4, 5, 6, 7]

/-- One sprite row drawn at row `r` from column `c` on: bit 7 is the leftmost pixel (41_display.md R122,
R124; log 10). The second part says whether any pixel collided. -/
def drawRow (g : Screen) (r c : Nat) (row : Byte) : Screen × Bool :=
  columns8.foldl
    (fun acc j =>
      let p := setPixel acc.1 r (c + j) (row.getLsbD (7 - j))
      (p.1, acc.2 || p.2))
    (g, false)

/-- The sprite's rows drawn from row `r` on, the first byte the top row (41_display.md R124); collisions
are accumulated across rows. -/
def drawSprite (g : Screen) (r c : Nat) : List Byte → Screen × Bool
  | [] => (g, false)
  | row :: rest =>
    let top := drawRow g r c row
    let below := drawSprite top.1 (r + 1) c rest
    (below.1, top.2 || below.2)

/-- The sprite's bytes `Mem[(I + r) mod MEM_SIZE]` for `r` from 0 to `k - 1` (20_memory.md R57). -/
def State.spriteRows (s : State) (k : Nat) : List Byte :=
  (List.range k).map (fun r => s.memRead (s.i.toNat + r))

/-- `CLS`: "Zero every screen pixel" (41_display.md R121, R123). -/
def execCls (s : State) : Result := .next (s.setScreen Screen.blank)

/-- `DRW Vx, Vy, n` (41_display.md R124): the coordinates are read before `VF` is written. -/
def execDrw (x y : Reg) (k : Nibble) (s : State) : Result :=
  let drawn := drawSprite s.screen (s.reg y).toNat (s.reg x).toNat (s.spriteRows k.toNat)
  .next ((s.setScreen drawn.1).setReg Reg.VF (flagByte drawn.2))

/-- `SCD n`: latches NOT_IMPLEMENTED, always (41_display.md R125). -/
def execScd (k : Nibble) (s : State) : Result := .next (s.raise .notImplemented (encode (.scd k)))

/-- `SCR`: latches NOT_IMPLEMENTED, always (41_display.md R126). -/
def execScr (s : State) : Result := .next (s.raise .notImplemented (encode .scr))

/-- `SCL`: latches NOT_IMPLEMENTED, always (41_display.md R127). -/
def execScl (s : State) : Result := .next (s.raise .notImplemented (encode .scl))

/-- `LOW`: latches NOT_IMPLEMENTED, always (41_display.md R128). -/
def execLow (s : State) : Result := .next (s.raise .notImplemented (encode .low))

/-- `HIGH`: latches NOT_IMPLEMENTED, always (41_display.md R129). -/
def execHigh (s : State) : Result := .next (s.raise .notImplemented (encode .high))

end Sys2Proof.Machine
end

