-- ==== Sys2Proof/Machine/Index.lean ====
section
/-! DEFINITION. The address-register and memory instructions (44_index_memory.md). -/

namespace Sys2Proof.Machine

/-- The side effect of `COMPAT_MODE` on `FX55` and `FX65`: `I <- (I + x + 1) mod 0x10000`, else `I` is left
(44_index_memory.md R204, R205). -/
def State.compatAdvanceI (s : State) (x : Reg) : State :=
  if s.cfg.compatMode then s.setI (s.i + BitVec.ofNat 16 (x.val + 1)) else s

/-- `LD I, nnn` (44_index_memory.md R200). -/
def execLdI (k : Addr12) (s : State) : Result := .next (s.setI (k.setWidth 16))

/-- `ADD I, Vx`: modulo 2^16, no flag (44_index_memory.md R201; 10_state.md R24). -/
def execAddI (x : Reg) (s : State) : Result := .next (s.setI (s.i + (s.reg x).setWidth 16))

/-- `LD F, Vx`: the font address of a digit, or FONT_INDEX by the policy (44_index_memory.md R202). -/
def execLdF (x : Reg) (s : State) : Result :=
  match charAddress s.cfg.fontIndexPolicy (s.reg x) with
  | .ok a => .next (s.setI a)
  | .error kind => .next (s.raise kind (encode (.ldF x)))

/-- `LD B, Vx`: the three digits of `V[x]` stored at `I`, `I + 1`, `I + 2` (44_index_memory.md R203). -/
def execLdB (x : Reg) (s : State) : Result :=
  .next (s.memWriteAll s.i.toNat (bcdBytes s.cfg.bcdMode (s.reg x)))

/-- `LD [I], Vx`: `V0..Vx` stored at `I .. I + x` (44_index_memory.md R204). -/
def execStoreRegs (x : Reg) (s : State) : Result :=
  .next ((s.memWriteAll s.i.toNat ((regsUpTo x).map s.reg)).compatAdvanceI x)

/-- `LD Vx, [I]`: `V0..Vx` loaded from `I .. I + x` (44_index_memory.md R205). -/
def execLoadRegs (x : Reg) (s : State) : Result :=
  .next ((s.loadRegsFrom s.i.toNat (regsUpTo x)).compatAdvanceI x)

end Sys2Proof.Machine
end

