-- ==== Sys2Proof/Machine/Keyboard.lean ====
section
/-! DEFINITION. The keyboard instructions and the wait for a key (45_keyboard.md). -/

namespace Sys2Proof.Machine

/-- `SKP Vx`: skip if the key is down, or KEY_INDEX by the policy (45_keyboard.md R231). -/
def execSkp (x : Reg) (s : State) : Result :=
  match keyIndex s.cfg.keyIndexPolicy (s.reg x) with
  | .ok k => .next (s.skipIf (s.key k))
  | .error kind => .next (s.raise kind (encode (.skp x)))

/-- `SKNP Vx`: skip if the key is up, or KEY_INDEX by the policy (45_keyboard.md R232). -/
def execSknp (x : Reg) (s : State) : Result :=
  match keyIndex s.cfg.keyIndexPolicy (s.reg x) with
  | .ok k => .next (s.skipIf (!s.key k))
  | .error kind => .next (s.raise kind (encode (.sknp x)))

/-- `LD Vx, K` (45_keyboard.md R233): blocked while no key is down; with one down its index goes to `V[x]`
and the wait ends. Keys are tested on every execution, the first included (D9; log 19). -/
def execLdVxK (x : Reg) (s : State) : Result :=
  match s.firstPressed with
  | none => .next (s.setBlock true)
  | some (k, drawn) => .next ((drawn.setReg x (BitVec.ofNat 8 k.val)).setBlock false)

end Sys2Proof.Machine
end

