-- ==== Sys2Proof/Machine/Fetch.lean ====
section
/-! DEFINITION. The parts of STEP around `Execute` (40_execution_cycle.md R101): the tests before it, the
fetch, the decoding, and the advance after it. -/

namespace Sys2Proof.Machine

/-- The jump-style instructions, exactly those of 40_execution_cycle.md R104: each sets `PC` itself and
the machine does not advance it. `RET` is one by the resolution of 90_conflicts.md C5. -/
def isJump : Instr → Bool
  | .ret | .jp _ | .call _ | .seImm _ _ | .sneImm _ _ | .seReg _ _ | .sneReg _ _ | .jpV0 _
  | .skp _ | .sknp _ => true
  | .cls | .ldImm _ _ | .addImm _ _ | .ldReg _ _ | .orReg _ _ | .andReg _ _ | .xorReg _ _
  | .addReg _ _ | .subReg _ _ | .shr _ _ | .subn _ _ | .shl _ _ | .ldI _ | .rnd _ _
  | .drw _ _ _ | .ldVxDt _ | .ldVxK _ | .ldDtVx _ | .ldStVx _ | .addI _ | .ldF _ | .ldB _
  | .storeRegs _ | .loadRegs _ | .scd _ | .scr | .scl | .low | .high => false

/-- The fault kind of a decoding error (30_encoding.md R77, 60_exceptions.md R271). -/
def decodeFault : DecodeError → Fault
  | .unknownInstruction => .unknownInstruction
  | .ambiguousOpcode => .ambiguousOpcode

/-- What the tests before `Execute` say a step does. -/
inductive Fetched where
  /-- A fault or an exit is latched: the step changes nothing. -/
  | halted
  /-- `PC` is out of bounds, or the word is the sentinel: `Exit <- 0`. -/
  | exits
  /-- A fault before `Execute`, with the opcode it records. -/
  | faults (kind : Fault) (op : Word)
  /-- The instruction to execute. -/
  | runs (i : Instr)
  deriving DecidableEq, Repr

/-- The tests of 40_execution_cycle.md R101 in their order, which is their priority (R108). -/
def fetch (s : State) : Fetched :=
  if s.fault.isSome then .halted
  else if s.exit.isSome then .halted
  else if s.cfg.memSize ≤ s.pc.toNat then .exits
  else if s.pc.toNat + 1 = s.cfg.memSize then .faults .fetchStraddle 0
  else if s.fetchWord = 0 then .exits
  else match decode s.fetchWord with
    | .ok i => .runs i
    | .error e => .faults (decodeFault e) s.fetchWord

/-- What the machine does after `Execute` of `i` has left `t` (40_execution_cycle.md R104): `PC <- PC + 2`
unless the instruction is jump-style or `Block` is true; a fault has ended the step (R106). -/
def retire (i : Instr) (t : State) : State :=
  if t.fault.isSome then t
  else if isJump i || t.block then t
  else t.setPc (t.pc + 2)

/-- The address at which an instruction word is placed for the next step: `PC` where a word fits there,
else 0. -/
def placeAddr (s : State) : Nat :=
  if s.pc.toNat + 1 < s.cfg.memSize then s.pc.toNat else 0

/-- The word `op` placed where the next step fetches it, the latches that would keep the step from
fetching cleared (log 9). -/
def placeWord (s : State) (op : Word) : State :=
  let a := placeAddr s
  { s.memWriteAll a [firstByte op, secondByte op] with
    pc := BitVec.ofNat 16 a, exit := none, fault := none }

end Sys2Proof.Machine
end

