-- ==== Sys2Proof/Machine/Step.lean ====
section
/-! DEFINITION. STEP, the one transition that executes instructions (40_execution_cycle.md R100, R101). -/

namespace Sys2Proof.Machine

/-- STEP (40_execution_cycle.md R101): the tests and the fetch, `Execute`, the advance. A fault is latched in
the NEXT state (60_exceptions.md R272; log 5), and a step with a fault or an exit latched changes
nothing. -/
def step (s : State) : Host.Outcome State Fault Refusal :=
  match fetch s with
  | .halted => .next s
  | .exits => .next (s.setExit 0)
  | .faults kind op => .next (s.raise kind op)
  | .runs i =>
    match exec i s with
    | .next t => .next (retire i t)
    | .fault r => .fault r
    | .refused r => .refused r

/-- `s` with the instruction whose bits are `w` stored where the next step fetches it (log 9). -/
def State.withFetchWord (s : State) (nbits w : Nat) : State :=
  placeWord s (BitVec.ofNat 16 (w % 2 ^ nbits))

end Sys2Proof.Machine
end

