-- ==== Sys2Proof/WellFormed.lean ====
section
/-! DEFINITION. The checks on what comes into the machine from outside: the configuration
(00_scope.md R10, 93_implementation_defined.md U17) and the arguments of the host's operations
(60_exceptions.md R284, 70_reset_and_hazards.md R314).

There is no check on instructions: the operand ranges of 30_encoding.md R74 are the operands' types in
Syntax.lean, and there are no reserved encodings (R83), so every term of type `Instr` is well formed. -/

namespace Sys2Proof

/-- `STACK_DEPTH` is an "integer ≥ 1, or `UNBOUNDED`" (00_scope.md R10). -/
def StackDepth.legal : StackDepth → Bool
  | .bounded n => decide (1 ≤ n)
  | .unbounded => true

/-- The legal values of 00_scope.md R10: `80 ≤ MEM_SIZE ≤ 0xFFFC`, `LOAD_ORIGIN ≤ MEM_SIZE` and a legal
`STACK_DEPTH`. The other parameters' types hold their legal values only. -/
def Config.legal (c : Config) : Bool :=
  decide (80 ≤ c.memSize) && decide (c.memSize ≤ 0xFFFC)
    && decide (c.loadOrigin ≤ c.memSize) && c.stackDepth.legal

/-- What the interface takes: a key index `0..15` (60_exceptions.md R284) and an image that fits into
memory at its origin, by default `LOAD_ORIGIN` (70_reset_and_hazards.md R312, R314). The other operations have no
argument. -/
def HostOp.wellFormed (c : Config) : HostOp → Bool
  | .keyDown k => decide (k < 16)
  | .keyUp k => decide (k < 16)
  | .load image origin => decide (origin.getD c.loadOrigin + image.length ≤ c.memSize)
  | .step => true
  | .tick => true
  | .decDt => true
  | .decSt => true
  | .reset => true

end Sys2Proof
end

