-- ==== Sys2Proof/Machine/HostOps.lean ====
section
/-! DEFINITION. The host's side of the interface (60_exceptions.md R281 to R284, R290, R291;
70_reset_and_hazards.md R310 to R314): construction, every operation as one atomic transition, and what
the host observes. -/

namespace Sys2Proof.Machine

/-- Construction with a chosen configuration (70_reset_and_hazards.md R311); an illegal one is refused
(93_implementation_defined.md U17; log 11). -/
def construct (c : Config) : Result :=
  if c.legal then .next (State.constructed c) else .refused .illegalConfiguration

/-- `DEC_DT` (60_exceptions.md R281). -/
def State.decDt (s : State) : State := s.setDt (decrement s.dt)

/-- `DEC_ST` (60_exceptions.md R281). -/
def State.decSt (s : State) : State := s.setSt (decrement s.st)

/-- `TICK` (60_exceptions.md R281): both timers at once, in every state. -/
def State.tick (s : State) : State := s.decDt.decSt

/-- `KEY_DOWN(k)` and `KEY_UP(k)`: the key set to `down`, or the operation refused when there is no such key
(60_exceptions.md R284). -/
def keyEvent (k : Nat) (down : Bool) (s : State) : Result :=
  if h : k < 16 then .next (s.setKey ⟨k, h⟩ down) else .refused (.noSuchKey k)

/-- The origin of a `LOAD`: the one given, or by default `LOAD_ORIGIN` (70_reset_and_hazards.md R312). -/
def originOf (c : Config) (given : Option Nat) : Nat := given.getD c.loadOrigin

/-- `LOAD(image, origin)` with the origin settled (70_reset_and_hazards.md R312): refused with no change when
the image does not fit; else reset, copy, `PC <- origin`. -/
def loadImage (image : List Byte) (origin : Nat) (s : State) : Result :=
  if s.cfg.memSize < origin + image.length then .refused .imageDoesNotFit
  else .next ((s.afterReset.memWriteAll origin image).setPc (BitVec.ofNat 16 origin))

/-- An operation of the host (60_exceptions.md R290). -/
def perform (op : HostOp) (s : State) : Result :=
  match op with
  | .step => step s
  | .tick => .next s.tick
  | .decDt => .next s.decDt
  | .decSt => .next s.decSt
  | .keyDown k => keyEvent k true s
  | .keyUp k => keyEvent k false s
  | .reset => .next s.afterReset
  | .load image origin => loadImage image (originOf s.cfg origin) s

/-- The state after an operation: a refused one has no effect (60_exceptions.md R284,
70_reset_and_hazards.md R314). -/
def State.after (s : State) (op : HostOp) : State :=
  match perform op s with
  | .next t => t
  | .fault _ => s
  | .refused _ => s

/-- The state after a sequence of operations in the order the host chose (60_exceptions.md R290). -/
def State.afterAll (s : State) : List HostOp → State
  | [] => s
  | op :: ops => (s.after op).afterAll ops

/-- The audio output `ST ≠ 0` (60_exceptions.md R283). -/
def State.audio (s : State) : Bool := s.st != 0

/-- What the host observes (60_exceptions.md R291). -/
structure Observation where
  screen : Screen
  audio  : Bool
  exit   : Option Nat
  fault  : Option FaultRecord
  block  : Bool
  deriving DecidableEq, Repr

/-- The observation of a state (60_exceptions.md R291). -/
def State.observe (s : State) : Observation :=
  { screen := s.screen, audio := s.audio, exit := s.exit, fault := s.fault, block := s.block }

end Sys2Proof.Machine
end

