-- ==== Sys2Proof/Safety.lean ====
section
/-! DEFINITION. What counts as a safe run, in the terms the claims use: runs and their ends, the invariant of
the machine, and frames. -/

namespace Sys2Proof

open Sys2Proof.Machine

/-- A run has ended (40_execution_cycle.md R109): an exit or a fault is latched. -/
abbrev Ended (s : State) : Prop := s.exit.isSome = true ∨ s.fault.isSome = true

/-- A run goes on: neither latch is set. -/
abbrev Running (s : State) : Prop := s.exit = none ∧ s.fault = none

/-- The stack holds at most `STACK_DEPTH` entries (10_state.md R31). -/
def StackBounded (s : State) : Prop :=
  match s.cfg.stackDepth with
  | .bounded n => s.stack.length ≤ n
  | .unbounded => True

/-- `PC` stays where 10_state.md R26 says: a jump target of at most `0x10FE`, or an address at most two
bytes past the end of memory. -/
def PcBounded (s : State) : Prop := s.pc.toNat ≤ 0x10FE ∨ s.pc.toNat ≤ s.cfg.memSize + 2

/-- Every return address was pushed as `PC + 2` by a `CALL` fetched inside memory. -/
def ReturnsBounded (s : State) : Prop := ∀ a ∈ s.stack, a.toNat ≤ s.cfg.memSize

/-- "While `Block` is true the instruction at `PC` is `FX0A`" (10_state.md R40). -/
def BlockMeansWaiting (s : State) : Prop := s.block = true → ∃ x, fetch s = .runs (.ldVxK x)

/-- The latches: the exit code is 0 (10_state.md R41), and "a fault and an exit are never latched together"
(92_eei_decisions.md D32). -/
def LatchesLegal (s : State) : Prop :=
  (s.exit = none ∨ s.exit = some 0) ∧ (s.exit = none ∨ s.fault = none)

/-- The invariant of the machine. -/
structure Inv (s : State) : Prop where
  cfg     : s.cfg.legal = true
  mem     : Memory.wf s.cfg s.mem = true
  stack   : StackBounded s
  pc      : PcBounded s
  returns : ReturnsBounded s
  block   : BlockMeansWaiting s
  latches : LatchesLegal s

/-- Every element but the keys and the count of draws is at the reset value of 10_state.md R46 for the
configuration `c`; the zeros are the spec's own choice D14. -/
structure AtResetValues (c : Config) (s : State) : Prop where
  cfg    : s.cfg = c
  regs   : ∀ r, s.reg r = 0
  i      : s.i = 0
  pc     : s.pc.toNat = c.loadOrigin
  stack  : s.stack = []
  dt     : s.dt = 0
  st     : s.st = 0
  font   : ∀ (a : Nat) (h : a < 80), s.memRead a = c.font[a]
  rest   : ∀ a, 80 ≤ a → a < c.memSize → s.memRead a = 0
  screen : ∀ r c, s.screen.pixel r c = false
  block  : s.block = false
  exit   : s.exit = none
  fault  : s.fault = none

/-! ### Frames -/

/-- The parts of the state that a frame speaks of: one register, one byte of memory, or a whole field. -/
inductive Part where
  | reg (r : Reg)
  | i
  | pc
  | stack
  | dt
  | st
  | byte (a : Nat)
  | screen
  | keys
  | block
  | exit
  | fault
  | cfg
  | draws
  deriving DecidableEq, Repr

/-- The part `p` of the state is in `t` as it is in `s`; a byte of memory is compared by reading it, at
every address of `Mem[0 .. MEM_SIZE-1]`. -/
def Same (s t : State) : Part → Prop
  | .reg r => t.reg r = s.reg r
  | .i => t.i = s.i
  | .pc => t.pc = s.pc
  | .stack => t.stack = s.stack
  | .dt => t.dt = s.dt
  | .st => t.st = s.st
  | .byte a => a < s.cfg.memSize → t.memRead a = s.memRead a
  | .screen => t.screen = s.screen
  | .keys => t.keys = s.keys
  | .block => t.block = s.block
  | .exit => t.exit = s.exit
  | .fault => t.fault = s.fault
  | .cfg => t.cfg = s.cfg
  | .draws => t.draws = s.draws

/-- Every part of the state but the allowed ones is in `t` as it is in `s`. -/
def OnlyChanges (s t : State) (allowed : Part → Prop) : Prop := ∀ p, ¬ allowed p → Same s t p

/-- The parts that an instruction may change, by the whole-machine rules of 10_state.md: `VF` as a flag
(R22), `I` (R23), the stack (R30), the timers (R32), the screen (R35), `Block` (R40), memory
(20_memory.md R57), `PC` by jump-style instructions alone (40_execution_cycle.md R104), the fault latch by
the instructions of 60_exceptions.md R271. No instruction is listed with the keys (R34), the exit latch
(R41) or the configuration (R43). The count of draws is the model's own. -/
def mayChange (s : State) : Instr → Part → Prop
  | .cls, p => p = .screen
  | .ret, p => p = .stack ∨ p = .pc ∨ p = .fault
  | .jp _, p => p = .pc
  | .call _, p => p = .stack ∨ p = .pc ∨ p = .fault
  | .seImm _ _, p => p = .pc
  | .sneImm _ _, p => p = .pc
  | .seReg _ _, p => p = .pc
  | .ldImm x _, p => p = .reg x
  | .addImm x _, p => p = .reg x
  | .ldReg x _, p => p = .reg x
  | .orReg x _, p => p = .reg x
  | .andReg x _, p => p = .reg x
  | .xorReg x _, p => p = .reg x
  | .addReg x _, p => p = .reg x ∨ p = .reg Reg.VF
  | .subReg x _, p => p = .reg x ∨ p = .reg Reg.VF
  | .shr x _, p => p = .reg x ∨ p = .reg Reg.VF
  | .subn x _, p => p = .reg x ∨ p = .reg Reg.VF
  | .shl x _, p => p = .reg x ∨ p = .reg Reg.VF
  | .sneReg _ _, p => p = .pc
  | .ldI _, p => p = .i
  | .jpV0 _, p => p = .pc
  | .rnd x _, p => p = .reg x ∨ p = .draws
  | .drw _ _ _, p => p = .screen ∨ p = .reg Reg.VF
  | .skp _, p => p = .pc ∨ p = .fault
  | .sknp _, p => p = .pc ∨ p = .fault
  | .ldVxDt x, p => p = .reg x
  | .ldVxK x, p => p = .reg x ∨ p = .block ∨ p = .draws
  | .ldDtVx _, p => p = .dt
  | .ldStVx _, p => p = .st
  | .addI _, p => p = .i
  | .ldF _, p => p = .i ∨ p = .fault
  | .ldB _, p => ∃ j < 3, p = .byte (s.dataAddr j)
  | .storeRegs x, p => (∃ j ≤ x.val, p = .byte (s.dataAddr j)) ∨ (s.cfg.compatMode = true ∧ p = .i)
  | .loadRegs x, p => (∃ r, r ≤ x ∧ p = .reg r) ∨ (s.cfg.compatMode = true ∧ p = .i)
  | .scd _, p => p = .fault
  | .scr, p => p = .fault
  | .scl, p => p = .fault
  | .low, p => p = .fault
  | .high, p => p = .fault

/-! ### Words -/

/-- The words of one row of the opcode table: those with `(op & mask) = pattern` and no others decode to
the row's instruction (30_encoding.md R80). -/
def RowIs (mask pattern : Word) (build : Word → Instr) : Prop :=
  ∀ op : Word, decode op = .ok (build op) ↔ op &&& mask = pattern

/-- The illegal words, listed as 30_encoding.md R81 lists them. The sentinel `0x0000` is among them. -/
def illegalWord (op : Word) : Prop :=
  (op.toNat ≤ 0x0FFF ∧ ¬ (0x00C0 ≤ op.toNat ∧ op.toNat ≤ 0x00CF)
    ∧ op ≠ 0x00E0 ∧ op ≠ 0x00EE ∧ op ≠ 0x00FB ∧ op ≠ 0x00FC ∧ op ≠ 0x00FE ∧ op ≠ 0x00FF)
  ∨ (op &&& 0xF000 = 0x5000 ∧ op &&& 0x000F ≠ 0)
  ∨ (op &&& 0xF000 = 0x8000 ∧ (op &&& 0x000F = 0x8 ∨ op &&& 0x000F = 0x9 ∨ op &&& 0x000F = 0xA
      ∨ op &&& 0x000F = 0xB ∨ op &&& 0x000F = 0xC ∨ op &&& 0x000F = 0xD ∨ op &&& 0x000F = 0xF))
  ∨ (op &&& 0xF000 = 0x9000 ∧ op &&& 0x000F ≠ 0)
  ∨ (op &&& 0xF000 = 0xE000 ∧ op &&& 0x00FF ≠ 0x9E ∧ op &&& 0x00FF ≠ 0xA1)
  ∨ (op &&& 0xF000 = 0xF000 ∧ op &&& 0x00FF ≠ 0x07 ∧ op &&& 0x00FF ≠ 0x0A ∧ op &&& 0x00FF ≠ 0x15
      ∧ op &&& 0x00FF ≠ 0x18 ∧ op &&& 0x00FF ≠ 0x1E ∧ op &&& 0x00FF ≠ 0x29 ∧ op &&& 0x00FF ≠ 0x33
      ∧ op &&& 0x00FF ≠ 0x55 ∧ op &&& 0x00FF ≠ 0x65)

/-- The words of rows 35 to 39, declared and not implemented (30_encoding.md R82). -/
def declaredWord (op : Word) : Prop :=
  (0x00C0 ≤ op.toNat ∧ op.toNat ≤ 0x00CF) ∨ op = 0x00FB ∨ op = 0x00FC ∨ op = 0x00FE ∨ op = 0x00FF

/-! ### Stores -/

/-- The instruction stores the bytes at `I`, `I + 1` and so on: `FX55` the registers `V0..Vx`
(44_index_memory.md R204), `FX33` the three digits of `V[x]`, each times 5 under `FONT_ADDRESS` (R203). -/
def StoresBytes (s : State) (i : Instr) (bytes : List Byte) : Prop :=
  (∃ x, i = .storeRegs x ∧ bytes.length = x.val + 1 ∧ ∀ r : Reg, r ≤ x → bytes[r.val]? = some (s.reg r))
  ∨ (∃ x scale, i = .ldB x ∧ scale = (if s.cfg.bcdMode = .fontAddress then 5 else 1)
      ∧ bytes.map BitVec.toNat =
        [scale * ((s.reg x).toNat / 100), scale * ((s.reg x).toNat / 10 % 10), scale * ((s.reg x).toNat % 10)])

/-- What the byte at address `a` is once the bytes have been stored from `I` on: the stored byte whose address,
reduced modulo `MEM_SIZE`, is `a`, or else the byte that was there (20_memory.md R51). -/
def ByteAfterStore (s : State) (bytes : List Byte) (a : Nat) (b : Byte) : Prop :=
  (∀ (j : Nat) (h : j < bytes.length), s.dataAddr j = a → b = bytes[j])
  ∧ ((∀ j < bytes.length, s.dataAddr j ≠ a) → b = s.memRead a)

/-! ### Sprites -/

/-- The bit of the `k`-row sprite at `I` that falls on the pixel in row `r` and column `c` when it is drawn
with its top left corner in row `V[y]` and column `V[x]`, coordinates wrapped (41_display.md R120, R122,
R124); false where the sprite does not cover the pixel. -/
def spriteBit (s : State) (x y : Reg) (k r c : Nat) : Bool :=
  let down := (r + 32 - (s.reg y).toNat % 32) % 32
  let right := (c + 64 - (s.reg x).toNat % 64) % 64
  decide (down < k) && decide (right < 8) && (s.memRead (s.i.toNat + down)).getLsbD (7 - right)

/-- Some lit pixel lies under a bit of the sprite, so that drawing it collides (41_display.md R124). -/
def Collides (s : State) (x y : Reg) (k : Nat) : Prop :=
  ∃ r < 32, ∃ c < 64, s.screen.pixel r c = true ∧ spriteBit s x y k r c = true

end Sys2Proof
end

