-- ==== Sys2Proof/Certificates/Slice0/Obligations.lean ====
section
/-! DEFINITION. The statements for the provers. Each docstring names the rules of spec/ that the statement
formalises; where a clause rests on a choice that the spec marks as its own (a decision D<n>) or on a choice
of the model (a log entry), the docstring says so and the statement's basis is derived. -/

open Sys2Proof Sys2Proof.Machine

/-! ### Encoding (30_encoding.md) -/

/-- Words written out from the encodings of 30_encoding.md R80 decode to the instructions they stand for
(95_test_vectors.md S1 to S3, D4 to D13). -/
def Obligations.SampleWordsDecode : Prop :=
  decode 0x00E0 = .ok .cls ∧ decode 0xAC1B = .ok (.ldI 0xC1B) ∧ decode 0x62AA = .ok (.ldImm 2 0xAA)
    ∧ decode 0x8AB4 = .ok (.addReg 0xA 0xB) ∧ decode 0xD12F = .ok (.drw 1 2 0xF)
    ∧ decode 0x3FAB = .ok (.seImm 0xF 0xAB) ∧ decode 0xE29E = .ok (.skp 2)
    ∧ decode 0xF265 = .ok (.loadRegs 2) ∧ decode 0x00C7 = .ok (.scd 7)

/-- R80: a word is the row whose `(op & mask) = match`, with the operands of R74, for each of the 39 rows. -/
def Obligations.OpcodeTableDecodesByMaskAndMatch : Prop :=
  RowIs 0xFFFF 0x00E0 (fun _ => .cls)
    ∧ RowIs 0xFFFF 0x00EE (fun _ => .ret)
    ∧ RowIs 0xF000 0x1000 (fun op => .jp (fieldNNN op))
    ∧ RowIs 0xF000 0x2000 (fun op => .call (fieldNNN op))
    ∧ RowIs 0xF000 0x3000 (fun op => .seImm (fieldX op) (fieldNN op))
    ∧ RowIs 0xF000 0x4000 (fun op => .sneImm (fieldX op) (fieldNN op))
    ∧ RowIs 0xF00F 0x5000 (fun op => .seReg (fieldX op) (fieldY op))
    ∧ RowIs 0xF000 0x6000 (fun op => .ldImm (fieldX op) (fieldNN op))
    ∧ RowIs 0xF000 0x7000 (fun op => .addImm (fieldX op) (fieldNN op))
    ∧ RowIs 0xF00F 0x8000 (fun op => .ldReg (fieldX op) (fieldY op))
    ∧ RowIs 0xF00F 0x8001 (fun op => .orReg (fieldX op) (fieldY op))
    ∧ RowIs 0xF00F 0x8002 (fun op => .andReg (fieldX op) (fieldY op))
    ∧ RowIs 0xF00F 0x8003 (fun op => .xorReg (fieldX op) (fieldY op))
    ∧ RowIs 0xF00F 0x8004 (fun op => .addReg (fieldX op) (fieldY op))
    ∧ RowIs 0xF00F 0x8005 (fun op => .subReg (fieldX op) (fieldY op))
    ∧ RowIs 0xF00F 0x8006 (fun op => .shr (fieldX op) (fieldY op))
    ∧ RowIs 0xF00F 0x8007 (fun op => .subn (fieldX op) (fieldY op))
    ∧ RowIs 0xF00F 0x800E (fun op => .shl (fieldX op) (fieldY op))
    ∧ RowIs 0xF00F 0x9000 (fun op => .sneReg (fieldX op) (fieldY op))
    ∧ RowIs 0xF000 0xA000 (fun op => .ldI (fieldNNN op))
    ∧ RowIs 0xF000 0xB000 (fun op => .jpV0 (fieldNNN op))
    ∧ RowIs 0xF000 0xC000 (fun op => .rnd (fieldX op) (fieldNN op))
    ∧ RowIs 0xF000 0xD000 (fun op => .drw (fieldX op) (fieldY op) (fieldN op))
    ∧ RowIs 0xF0FF 0xE09E (fun op => .skp (fieldX op))
    ∧ RowIs 0xF0FF 0xE0A1 (fun op => .sknp (fieldX op))
    ∧ RowIs 0xF0FF 0xF007 (fun op => .ldVxDt (fieldX op))
    ∧ RowIs 0xF0FF 0xF00A (fun op => .ldVxK (fieldX op))
    ∧ RowIs 0xF0FF 0xF015 (fun op => .ldDtVx (fieldX op))
    ∧ RowIs 0xF0FF 0xF018 (fun op => .ldStVx (fieldX op))
    ∧ RowIs 0xF0FF 0xF01E (fun op => .addI (fieldX op))
    ∧ RowIs 0xF0FF 0xF029 (fun op => .ldF (fieldX op))
    ∧ RowIs 0xF0FF 0xF033 (fun op => .ldB (fieldX op))
    ∧ RowIs 0xF0FF 0xF055 (fun op => .storeRegs (fieldX op))
    ∧ RowIs 0xF0FF 0xF065 (fun op => .loadRegs (fieldX op))
    ∧ RowIs 0xFFF0 0x00C0 (fun op => .scd (fieldN op))
    ∧ RowIs 0xFFFF 0x00FB (fun _ => .scr)
    ∧ RowIs 0xFFFF 0x00FC (fun _ => .scl)
    ∧ RowIs 0xFFFF 0x00FE (fun _ => .low)
    ∧ RowIs 0xFFFF 0x00FF (fun _ => .high)

/-- Decoding the word of any instruction gives the instruction back, every operand at every value
(30_encoding.md R73, R74, R80). -/
def Obligations.DecodeOfEncodeIsIdentity : Prop := ∀ i : Instr, decode (encode i) = .ok i

/-- A word that decodes is the word of the instruction it decodes to: every bit of it is an operand bit or a
fixed bit of the row (30_encoding.md R83, last sentence). -/
def Obligations.EncodeOfDecodeIsIdentity : Prop := ∀ op i, decode op = .ok i → encode i = op

/-- "no 16-bit word matches two of them" (30_encoding.md R79), so that no word is an ambiguous opcode. -/
def Obligations.NoWordMatchesTwoRows : Prop :=
  ∀ op : Word, (matchingRows op).length ≤ 1 ∧ decode op ≠ .error .ambiguousOpcode

/-- The words that are no instruction are exactly those listed in 30_encoding.md R81. -/
def Obligations.IllegalWordsAreExactlyThoseListed : Prop :=
  ∀ op : Word, decode op = .error .unknownInstruction ↔ illegalWord op

/-- R72: a word matches a format when every fixed-digit position matches its nibble, and this is
`(op & mask) = match` with `0xF` and the digit in the fixed positions and 0 elsewhere. -/
def Obligations.FormatMatchesByMaskAndMatch : Prop :=
  (∀ (f : Format) (op : Word),
    (f.accepts op = true ↔ (∀ d, f.c3 = .digit d → nib3 op = d) ∧ (∀ d, f.c2 = .digit d → nib2 op = d)
      ∧ (∀ d, f.c1 = .digit d → nib1 op = d) ∧ (∀ d, f.c0 = .digit d → nib0 op = d))
    ∧ (f.accepts op = true ↔ op &&& f.mask = f.pattern))
  ∧ (∀ f : Format, f.mask = wordOfNibbles f.c3.maskNibble f.c2.maskNibble f.c1.maskNibble f.c0.maskNibble
      ∧ f.pattern = wordOfNibbles f.c3.matchNibble f.c2.matchNibble f.c1.matchNibble f.c0.matchNibble)
  ∧ (∀ d : Nibble, (FormatChar.digit d).maskNibble = 0xF ∧ (FormatChar.digit d).matchNibble = d)
  ∧ (∀ c : FormatChar, (∀ d, c ≠ .digit d) → c.maskNibble = 0 ∧ c.matchNibble = 0)

/-- The jump-style instructions are exactly those of 40_execution_cycle.md R104, told by their words:
`00EE`, and the words whose first nibble is 1, 2, 3, 4, 5, 9, B or E. That `00EE` is one is decision D5. -/
def Obligations.JumpStyleInstructionsByWord : Prop :=
  ∀ i : Instr, isJump i = true ↔
    encode i = 0x00EE ∨ nib3 (encode i) = 0x1 ∨ nib3 (encode i) = 0x2 ∨ nib3 (encode i) = 0x3
      ∨ nib3 (encode i) = 0x4 ∨ nib3 (encode i) = 0x5 ∨ nib3 (encode i) = 0x9 ∨ nib3 (encode i) = 0xB
      ∨ nib3 (encode i) = 0xE

/-! ### The step (40_execution_cycle.md) -/

/-- When the word at `PC`, the byte at `PC` its more significant one (20_memory.md R53, 40_execution_cycle.md
R102; D1), decodes to `i` and no latch is set, the step is `exec i`, followed by the advance of R104:
`PC <- PC + 2` unless a fault has been latched, `i` is jump-style or `Block` is true. -/
def Obligations.StepRunsTheDecodedInstruction : Prop :=
  ∀ (s t : State) (i : Instr) (op : Word), Running s → s.pc.toNat + 1 < s.cfg.memSize →
    op.toNat = 256 * (s.memRead s.pc.toNat).toNat + (s.memRead (s.pc.toNat + 1)).toNat →
    decode op = .ok i → exec i s = .next t →
    (t.fault ≠ none ∨ isJump i = true ∨ t.block = true → step s = .next t)
      ∧ (t.fault = none → isJump i = false → t.block = false → step s = .next (t.setPc (t.pc + 2)))

/-- The tests before `Execute` in the order of R101 and R108 (decisions D2, D16, D26, D32): a latched fault
or exit, `PC` out of bounds, the straddling fetch, the sentinel, an unknown word. -/
def Obligations.StepTestsComeInOrder : Prop :=
  ∀ s : State,
    (s.fault ≠ none ∨ s.exit ≠ none → step s = .next s)
      ∧ (Running s → s.cfg.memSize ≤ s.pc.toNat → step s = .next (s.setExit 0))
      ∧ (Running s → s.pc.toNat + 1 = s.cfg.memSize →
          step s = .next { s with fault := some ⟨.fetchStraddle, s.pc, 0⟩ })
      ∧ (Running s → s.pc.toNat + 1 < s.cfg.memSize → s.fetchWord = 0 → step s = .next (s.setExit 0))
      ∧ (Running s → s.pc.toNat + 1 < s.cfg.memSize → s.fetchWord ≠ 0 → illegalWord s.fetchWord →
          step s = .next { s with fault := some ⟨.unknownInstruction, s.pc, s.fetchWord⟩ })

/-- Every step answers a next state: a fault is latched in it (60_exceptions.md R272, D16), so that no step
ends in the host's outcomes fault or refused (the model's reading, log 5). -/
def Obligations.EveryStepAnswersANextState : Prop := ∀ s : State, ∃ t, step s = .next t

/-- "After either, `STEP` changes nothing, so the state is final until `RESET` or `LOAD`"
(40_execution_cycle.md R109; 60_exceptions.md R272): whatever the host does short of those two, only the
timers and the keys change. -/
def Obligations.AnEndedRunStaysEnded : Prop :=
  ∀ (s : State) (ops : List HostOp), Ended s →
    (∀ op ∈ ops, op ≠ .reset ∧ ∀ image origin, op ≠ .load image origin) →
    OnlyChanges s (s.afterAll ops) (fun p => p = .dt ∨ p = .st ∨ p = .keys)

/-- A fault is precise, and only the conditions of 60_exceptions.md R271 raise one (R106, R272; D16): the
step that latches `(kind, pc, opcode)` changes nothing else, `pc` is its `PC`, and kind and opcode are those
of the table. -/
def Obligations.AFaultIsPreciseAndListed : Prop :=
  ∀ (s t : State) (f : FaultRecord), Running s → step s = .next t → t.fault = some f →
    t = { s with fault := some f } ∧ f.pc = s.pc
      ∧ ((f.kind = .fetchStraddle ∧ f.opcode = 0 ∧ s.pc.toNat + 1 = s.cfg.memSize)
        ∨ (f.opcode = s.fetchWord ∧ s.pc.toNat + 1 < s.cfg.memSize
          ∧ ((f.kind = .unknownInstruction ∧ illegalWord f.opcode ∧ f.opcode ≠ 0)
            ∨ (f.kind = .notImplemented ∧ declaredWord f.opcode)
            ∨ (f.kind = .stackUnderflow ∧ f.opcode = 0x00EE ∧ s.stack = [])
            ∨ (f.kind = .stackOverflow ∧ f.opcode &&& 0xF000 = 0x2000
                ∧ ∃ n, s.cfg.stackDepth = .bounded n ∧ n ≤ s.stack.length)
            ∨ (f.kind = .fontIndex ∧ f.opcode &&& 0xF0FF = 0xF029 ∧ s.cfg.fontIndexPolicy = .fault
                ∧ 15 < (s.reg (fieldX f.opcode)).toNat)
            ∨ (f.kind = .keyIndex ∧ (f.opcode &&& 0xF0FF = 0xE09E ∨ f.opcode &&& 0xF0FF = 0xE0A1)
                ∧ s.cfg.keyIndexPolicy = .fault ∧ 15 < (s.reg (fieldX f.opcode)).toNat))))

/-! ### Invariants -/

/-- A machine constructed with a legal configuration meets the invariant, the reset machine among them
(70_reset_and_hazards.md R311; the reset values it holds for are the spec's own choice D14, log 6). -/
def Obligations.ConstructionMeetsTheInvariant : Prop :=
  (∀ c : Config, c.legal = true → Inv (State.constructed c)) ∧ Inv State.reset

/-- Every step keeps the invariant: a legal configuration, canonical memory, the bounds of the stack, of `PC`
and of the return addresses (10_state.md R26, R31), `Block` only at an `FX0A` (R40), and legal latches
(R41, D32). -/
def Obligations.EveryStepKeepsTheInvariant : Prop :=
  ∀ s t : State, Inv s → step s = .next t → Inv t

/-- Every operation of the host keeps the invariant (60_exceptions.md R290), so that it holds in every state
that a host can bring about. -/
def Obligations.EveryHostOperationKeepsTheInvariant : Prop :=
  ∀ (s : State) (op : HostOp), Inv s → Inv (s.after op)

/-- "no `PC` arithmetic exceeds 0xFFFF, so `PC` never wraps" (10_state.md R26; D3). -/
def Obligations.ProgramCounterNeverWraps : Prop :=
  ∀ s : State, Inv s → s.pc.toNat < s.cfg.memSize →
    s.pc.toNat + 4 ≤ 0xFFFF ∧ ∀ t, step s = .next t → t.pc.toNat ≤ 0xFFFE

/-- Canonical memories that read alike are equal lists (the model's representation, log 8). -/
def Obligations.MemoriesThatReadAlikeAreEqual : Prop :=
  ∀ (c : Config) (m n : Memory), Memory.wf c m = true → Memory.wf c n = true →
    (∀ a < c.memSize, Memory.read c m a = Memory.read c n a) → m = n

/-! ### Rules about all instructions -/

/-- Each instruction changes the parts of the state that the whole-machine rules give it and no others
(10_state.md R22, R23, R30, R32, R34, R35, R40, R43; 20_memory.md R57). -/
def Obligations.EachInstructionWritesOnlyItsParts : Prop :=
  ∀ (s t : State) (i : Instr), s.cfg.legal = true → Memory.wf s.cfg s.mem = true →
    exec i s = .next t → OnlyChanges s t (mayChange s i)

/-- "no instruction reads `ST`" (10_state.md R32): two machines that differ in the sound timer alone stay so
over a step, and agree on it after `FX18`. Both machines make the same draw: what `CXNN`, and `FX0A` under
`ANY_PRESSED`, draw is a free value of the count of draws, which is equal in the two (the model's choice,
log 1, log 2). -/
def Obligations.NoInstructionReadsTheSoundTimer : Prop :=
  ∀ (s t : State) (b : Byte), step s = .next t →
    ((∃ x, fetch s = .runs (.ldStVx x)) → step { s with st := b } = .next t)
      ∧ ((¬ ∃ x, fetch s = .runs (.ldStVx x)) → step { s with st := b } = .next { t with st := b })

/-- `Keys` "is read by `EX9E`, `EXA1` and `FX0A`" (10_state.md R34): every other instruction does the same
whatever the keys are. For `CXNN` the same draw is compared: its byte is a free value of the count of draws,
which is equal in the two machines (the model's choice, log 1). -/
def Obligations.KeysAreReadByThreeInstructionsOnly : Prop :=
  ∀ (s t : State) (keys : Vector Bool 16) (i : Instr),
    (∀ x, i ≠ .skp x ∧ i ≠ .sknp x ∧ i ≠ .ldVxK x) →
    exec i s = .next t → exec i { s with keys := keys } = .next { t with keys := keys }

/-- `COMPAT_MODE` is "read by `FX55` and `FX65` only" (10_state.md R43): every other instruction does the same
in both modes. For `CXNN`, and for `FX0A` under `ANY_PRESSED`, the same draw is compared: it is a free value of
the count of draws, which is equal in the two machines (the model's choice, log 1, log 2). -/
def Obligations.CompatModeIsReadByTwoInstructionsOnly : Prop :=
  ∀ (s t : State) (mode : Bool) (i : Instr), (∀ x, i ≠ .storeRegs x ∧ i ≠ .loadRegs x) →
    exec i s = .next t →
    exec i { s with cfg := { s.cfg with compatMode := mode } }
      = .next { t with cfg := { t.cfg with compatMode := mode } }

/-! ### Display (41_display.md) -/

/-- R123: `00E0` zeroes all 32 × 64 pixels, changes nothing else, and is advanced by the machine. -/
def Obligations.ClearScreenZeroesEveryPixel : Prop :=
  RowIs 0xFFFF 0x00E0 (fun _ => .cls) ∧ isJump .cls = false
    ∧ ∀ s : State, ∃ t, exec .cls s = .next t
      ∧ (∀ r < 32, ∀ c < 64, t.screen.pixel r c = false) ∧ OnlyChanges s t (fun p => p = .screen)

/-- R120, R122, R124 (bit order D12): every pixel is the old one XOR the sprite's bit that falls on it, wrapped
at the edges; `VF` is 1 if and only if a lit pixel lay under a bit of the sprite; nothing else changes. -/
def Obligations.DrawXorsTheSpriteAndReportsCollision : Prop :=
  ∀ (s : State) (x y : Reg) (k : Nibble), isJump (.drw x y k) = false ∧ ∃ t, exec (.drw x y k) s = .next t
    ∧ (∀ r < 32, ∀ c < 64,
        t.screen.pixel r c = Bool.xor (s.screen.pixel r c) (spriteBit s x y k.toNat r c))
    ∧ (Collides s x y k.toNat → t.reg Reg.VF = 1) ∧ (¬ Collides s x y k.toNat → t.reg Reg.VF = 0)
    ∧ OnlyChanges s t (fun p => p = .screen ∨ p = .reg Reg.VF)

/-- Drawing the same sprite twice at the same place restores the screen; on a blank screen the second draw
sets `VF` if the sprite has any 1 bit (R124, corner cases; 95_test_vectors.md S7; log 26). The coordinates are
not in `VF`, which the first draw writes. -/
def Obligations.DrawingTwiceRestoresTheScreen : Prop :=
  ∀ (s : State) (x y : Reg) (k : Nibble), x ≠ Reg.VF → y ≠ Reg.VF →
    ∃ t u, exec (.drw x y k) s = .next t ∧ exec (.drw x y k) t = .next u ∧ u.screen = s.screen
      ∧ (s.screen = Screen.blank → t.reg Reg.VF = 0
          ∧ ((∃ r < 32, ∃ c < 64, spriteBit s x y k.toNat r c = true) → u.reg Reg.VF = 1))

/-- R125 to R129 (D30): each of the five declared instructions latches NOT_IMPLEMENTED with its `PC` and its
word, and changes nothing else. -/
def Obligations.DeclaredInstructionsLatchNotImplemented : Prop :=
  ∀ (s : State) (k : Nibble),
    (∃ t, exec (.scd k) s = .next t ∧ OnlyChanges s t (fun p => p = .fault)
        ∧ t.fault = some ⟨.notImplemented, s.pc, 0x00C0 + k.setWidth 16⟩)
      ∧ (∃ t, exec .scr s = .next t ∧ OnlyChanges s t (fun p => p = .fault)
        ∧ t.fault = some ⟨.notImplemented, s.pc, 0x00FB⟩)
      ∧ (∃ t, exec .scl s = .next t ∧ OnlyChanges s t (fun p => p = .fault)
        ∧ t.fault = some ⟨.notImplemented, s.pc, 0x00FC⟩)
      ∧ (∃ t, exec .low s = .next t ∧ OnlyChanges s t (fun p => p = .fault)
        ∧ t.fault = some ⟨.notImplemented, s.pc, 0x00FE⟩)
      ∧ (∃ t, exec .high s = .next t ∧ OnlyChanges s t (fun p => p = .fault)
        ∧ t.fault = some ⟨.notImplemented, s.pc, 0x00FF⟩)

/-! ### Control transfer (42_control_flow.md) -/

/-- R142: `1NNN` sets `PC` to the constant and changes nothing else. A jump to itself leaves the state as it was, so
that it loops; a target at or above `MEM_SIZE` ends the run at the next step. -/
def Obligations.JumpGoesToItsConstant : Prop :=
  RowIs 0xF000 0x1000 (fun op => .jp (fieldNNN op)) ∧
  ∀ (s : State) (k : Addr12), isJump (.jp k) = true ∧ ∃ t, exec (.jp k) s = .next t
    ∧ t.pc.toNat = k.toNat ∧ OnlyChanges s t (fun p => p = .pc)
    ∧ (s.pc.toNat = k.toNat → t = s)
    ∧ (Running s → s.cfg.memSize ≤ k.toNat → step t = .next (t.setExit 0))

/-- R148: `BNNN` sets `PC` to the exact sum of `V0` and the constant, not reduced by `MEM_SIZE` (which the spec
derives from 20_memory.md R52), and changes nothing else. -/
def Obligations.JumpWithOffsetAddsV0Exactly : Prop :=
  ∀ (s : State) (k : Addr12), isJump (.jpV0 k) = true ∧ ∃ t, exec (.jpV0 k) s = .next t
    ∧ t.pc.toNat = (s.reg Reg.V0).toNat + k.toNat ∧ OnlyChanges s t (fun p => p = .pc)

/-- R144 to R147: the four register skips move `PC` by 4 when their condition holds and by 2 when it does
not, and change nothing else; `5XYn` and `9XYn` with `n ≠ 0` are unknown. -/
def Obligations.SkipsMovePcByFourOrTwo : Prop :=
  (RowIs 0xF000 0x3000 (fun op => .seImm (fieldX op) (fieldNN op))
    ∧ RowIs 0xF000 0x4000 (fun op => .sneImm (fieldX op) (fieldNN op))
    ∧ RowIs 0xF00F 0x5000 (fun op => .seReg (fieldX op) (fieldY op))
    ∧ RowIs 0xF00F 0x9000 (fun op => .sneReg (fieldX op) (fieldY op)))
  ∧ (∀ op : Word, op &&& 0xF000 = 0x5000 ∨ op &&& 0xF000 = 0x9000 → op &&& 0x000F ≠ 0 →
      decode op = .error .unknownInstruction)
  ∧ ∀ (s : State) (x y : Reg) (k : Byte),
    (isJump (.seImm x k) = true ∧ ∃ t, exec (.seImm x k) s = .next t
        ∧ t.pc = s.pc + (if s.reg x = k then 4 else 2) ∧ OnlyChanges s t (fun p => p = .pc))
      ∧ (isJump (.sneImm x k) = true ∧ ∃ t, exec (.sneImm x k) s = .next t
        ∧ t.pc = s.pc + (if s.reg x ≠ k then 4 else 2) ∧ OnlyChanges s t (fun p => p = .pc))
      ∧ (isJump (.seReg x y) = true ∧ ∃ t, exec (.seReg x y) s = .next t
        ∧ t.pc = s.pc + (if s.reg x = s.reg y then 4 else 2) ∧ OnlyChanges s t (fun p => p = .pc))
      ∧ (isJump (.sneReg x y) = true ∧ ∃ t, exec (.sneReg x y) s = .next t
        ∧ t.pc = s.pc + (if s.reg x ≠ s.reg y then 4 else 2) ∧ OnlyChanges s t (fun p => p = .pc))

/-- R143 and 10_state.md R31 (depth and overflow D7): with room on the stack `2NNN` pushes `PC + 2` and jumps;
on a full stack it latches STACK_OVERFLOW and changes nothing else. -/
def Obligations.CallPushesTheReturnAddress : Prop :=
  ∀ (s : State) (k : Addr12),
    ((∀ n, s.cfg.stackDepth = .bounded n → s.stack.length < n) → ∃ t, exec (.call k) s = .next t
        ∧ t.pc.toNat = k.toNat ∧ t.stack = (s.pc + 2) :: s.stack
        ∧ OnlyChanges s t (fun p => p = .pc ∨ p = .stack))
      ∧ (∀ n, s.cfg.stackDepth = .bounded n → s.stack.length = n → ∃ t, exec (.call k) s = .next t
        ∧ t.fault = some ⟨.stackOverflow, s.pc, 0x2000 + k.setWidth 16⟩
        ∧ OnlyChanges s t (fun p => p = .fault))

/-- R141 (D5): `00EE` pops the top of the stack into `PC`; on an empty stack it latches STACK_UNDERFLOW and
changes nothing else. -/
def Obligations.ReturnPopsIntoPc : Prop :=
  ∀ s : State, isJump .ret = true
    ∧ (∀ a rest, s.stack = a :: rest → ∃ t, exec .ret s = .next t ∧ t.pc = a ∧ t.stack = rest
        ∧ OnlyChanges s t (fun p => p = .pc ∨ p = .stack))
    ∧ (s.stack = [] → ∃ t, exec .ret s = .next t
        ∧ t.fault = some ⟨.stackUnderflow, s.pc, 0x00EE⟩ ∧ OnlyChanges s t (fun p => p = .fault))

/-- A `CALL` and then a `RET` resume at the instruction after the `CALL` with everything but `PC` as it was
(R141, R143; 90_conflicts.md C5, D5): over `Execute`, and over two whole steps, where the machine advances
neither. -/
def Obligations.ReturnResumesAfterTheCall : Prop :=
  ∀ (s : State) (k : Addr12), (∀ n, s.cfg.stackDepth = .bounded n → s.stack.length < n) →
    ∃ t, exec (.call k) s = .next t ∧ exec .ret t = .next (s.setPc (s.pc + 2))
      ∧ (fetch s = .runs (.call k) → step s = .next t
        ∧ (fetch t = .runs .ret → step t = .next (s.setPc (s.pc + 2))))

/-! ### Registers and arithmetic (43_alu.md) -/

/-- R171, R172, R173: the constant load, the constant add modulo 256 with no flag, and the copy write `V[x]`
and nothing else, and are advanced by the machine. -/
def Obligations.LoadAddConstantAndCopy : Prop :=
  (RowIs 0xF000 0x6000 (fun op => .ldImm (fieldX op) (fieldNN op))
    ∧ RowIs 0xF000 0x7000 (fun op => .addImm (fieldX op) (fieldNN op))
    ∧ RowIs 0xF00F 0x8000 (fun op => .ldReg (fieldX op) (fieldY op)))
  ∧ ∀ (s : State) (x y : Reg) (k : Byte),
    (isJump (.ldImm x k) = false ∧ ∃ t, exec (.ldImm x k) s = .next t
        ∧ t.reg x = k ∧ OnlyChanges s t (fun p => p = .reg x))
      ∧ (isJump (.addImm x k) = false ∧ ∃ t, exec (.addImm x k) s = .next t
        ∧ (t.reg x).toNat = ((s.reg x).toNat + k.toNat) % 256 ∧ OnlyChanges s t (fun p => p = .reg x))
      ∧ (isJump (.ldReg x y) = false ∧ ∃ t, exec (.ldReg x y) s = .next t
        ∧ t.reg x = s.reg y ∧ OnlyChanges s t (fun p => p = .reg x))

/-- R174, R175, R176: OR, AND and XOR work bit by bit on `V[x]`, write no flag and nothing else, and are
advanced by the machine. -/
def Obligations.BitwiseInstructionsWorkBitByBit : Prop :=
  (RowIs 0xF00F 0x8001 (fun op => .orReg (fieldX op) (fieldY op))
    ∧ RowIs 0xF00F 0x8002 (fun op => .andReg (fieldX op) (fieldY op))
    ∧ RowIs 0xF00F 0x8003 (fun op => .xorReg (fieldX op) (fieldY op)))
  ∧ ∀ (s : State) (x y : Reg),
    (isJump (.orReg x y) = false ∧ ∃ t, exec (.orReg x y) s = .next t
        ∧ (∀ n < 8, (t.reg x).getLsbD n = ((s.reg x).getLsbD n || (s.reg y).getLsbD n))
        ∧ OnlyChanges s t (fun p => p = .reg x))
      ∧ (isJump (.andReg x y) = false ∧ ∃ t, exec (.andReg x y) s = .next t
        ∧ (∀ n < 8, (t.reg x).getLsbD n = ((s.reg x).getLsbD n && (s.reg y).getLsbD n))
        ∧ OnlyChanges s t (fun p => p = .reg x))
      ∧ (isJump (.xorReg x y) = false ∧ ∃ t, exec (.xorReg x y) s = .next t
        ∧ (∀ n < 8, (t.reg x).getLsbD n = Bool.xor ((s.reg x).getLsbD n) ((s.reg y).getLsbD n))
        ∧ OnlyChanges s t (fun p => p = .reg x))

/-- R177, R183 (flag order D6): the sum modulo 256 goes to `V[x]` and the carry to `VF`, which with `x = 0xF`
is what `VF` ends with; nothing else changes. -/
def Obligations.AddSetsTheCarry : Prop :=
  ∀ (s : State) (x y : Reg), isJump (.addReg x y) = false ∧ ∃ t, exec (.addReg x y) s = .next t
    ∧ (x ≠ Reg.VF → (t.reg x).toNat = ((s.reg x).toNat + (s.reg y).toNat) % 256)
    ∧ t.reg Reg.VF = (if (s.reg x).toNat + (s.reg y).toNat > 255 then 1 else 0)
    ∧ OnlyChanges s t (fun p => p = .reg x ∨ p = .reg Reg.VF)

/-- R178, R180, R183 (flag order D6): both subtractions are modulo 256, and `VF` is 1 exactly when there is no
borrow; nothing else changes. -/
def Obligations.SubtractionsSetNotBorrow : Prop :=
  ∀ (s : State) (x y : Reg),
    (isJump (.subReg x y) = false ∧ ∃ t, exec (.subReg x y) s = .next t
        ∧ (x ≠ Reg.VF → (t.reg x).toNat = (256 + (s.reg x).toNat - (s.reg y).toNat) % 256)
        ∧ t.reg Reg.VF = (if (s.reg x).toNat ≥ (s.reg y).toNat then 1 else 0)
        ∧ OnlyChanges s t (fun p => p = .reg x ∨ p = .reg Reg.VF))
      ∧ (isJump (.subn x y) = false ∧ ∃ t, exec (.subn x y) s = .next t
        ∧ (x ≠ Reg.VF → (t.reg x).toNat = (256 + (s.reg y).toNat - (s.reg x).toNat) % 256)
        ∧ t.reg Reg.VF = (if (s.reg y).toNat ≥ (s.reg x).toNat then 1 else 0)
        ∧ OnlyChanges s t (fun p => p = .reg x ∨ p = .reg Reg.VF))

/-- R179, R181 (flag order D6, shift source D28): the operand is `V[x]` or, with `SHIFT_SOURCE = VY`, `V[y]`; it
is halved or doubled modulo 256, and `VF` is the bit shifted out; nothing else changes. -/
def Obligations.ShiftsSetTheBitShiftedOut : Prop :=
  ∀ (s : State) (x y : Reg) (src : Byte),
    src = (if s.cfg.shiftSource = .vx then s.reg x else s.reg y) →
    (isJump (.shr x y) = false ∧ ∃ t, exec (.shr x y) s = .next t
        ∧ (x ≠ Reg.VF → (t.reg x).toNat = src.toNat / 2)
        ∧ (t.reg Reg.VF).toNat = src.toNat % 2
        ∧ OnlyChanges s t (fun p => p = .reg x ∨ p = .reg Reg.VF))
      ∧ (isJump (.shl x y) = false ∧ ∃ t, exec (.shl x y) s = .next t
        ∧ (x ≠ Reg.VF → (t.reg x).toNat = 2 * src.toNat % 256)
        ∧ (t.reg Reg.VF).toNat = src.toNat / 128
        ∧ OnlyChanges s t (fun p => p = .reg x ∨ p = .reg Reg.VF))

/-- R182 (D18): `V[x]` gets a random byte masked by the constant, so that no bit outside the constant is set;
nothing else changes but the model's count of draws, which goes up by one so that the next draw is fresh
(log 1). -/
def Obligations.RandomIsMaskedByItsConstant : Prop :=
  ∀ (s : State) (x : Reg) (k : Byte), isJump (.rnd x k) = false ∧ ∃ t, exec (.rnd x k) s = .next t
    ∧ (∃ r : Byte, r = s.randomByte ∧ ∀ n < 8, (t.reg x).getLsbD n = (r.getLsbD n && k.getLsbD n))
    ∧ t.reg x &&& ~~~k = 0 ∧ t.draws = s.draws + 1
    ∧ OnlyChanges s t (fun p => p = .reg x ∨ p = .draws)

/-! ### Address register and memory (44_index_memory.md) -/

/-- R200: `ANNN` sets `I` to the constant, changes nothing else, and is advanced by the machine. -/
def Obligations.LoadIndexSetsI : Prop :=
  RowIs 0xF000 0xA000 (fun op => .ldI (fieldNNN op)) ∧
  ∀ (s : State) (k : Addr12), isJump (.ldI k) = false ∧ ∃ t, exec (.ldI k) s = .next t
    ∧ t.i.toNat = k.toNat ∧ OnlyChanges s t (fun p => p = .i)

/-- R201, 10_state.md R24 (D4): `FX1E` adds `V[x]` to `I` modulo 2^16, sets no flag and changes nothing else. -/
def Obligations.AddToIndexWrapsAtSixteenBits : Prop :=
  ∀ (s : State) (x : Reg), isJump (.addI x) = false ∧ ∃ t, exec (.addI x) s = .next t
    ∧ t.i.toNat = (s.i.toNat + (s.reg x).toNat) % 0x10000 ∧ OnlyChanges s t (fun p => p = .i)

/-- R202 (D11): a digit's font address is five times the digit; above 15 the policy decides between the fault
FONT_INDEX, the low nibble and the product. -/
def Obligations.CharacterAddressByPolicy : Prop :=
  ∀ (s : State) (x : Reg) (d : Nat), d = (s.reg x).toNat → isJump (.ldF x) = false
    ∧ ((d ≤ 15 ∨ s.cfg.fontIndexPolicy = .multiply) → ∃ t, exec (.ldF x) s = .next t
        ∧ t.i.toNat = 5 * d ∧ OnlyChanges s t (fun p => p = .i))
    ∧ (15 < d → s.cfg.fontIndexPolicy = .lowNibble → ∃ t, exec (.ldF x) s = .next t
        ∧ t.i.toNat = 5 * (d % 16) ∧ OnlyChanges s t (fun p => p = .i))
    ∧ (15 < d → s.cfg.fontIndexPolicy = .fault → ∃ t, exec (.ldF x) s = .next t
        ∧ t.fault = some ⟨.fontIndex, s.pc, encode (.ldF x)⟩ ∧ OnlyChanges s t (fun p => p = .fault))

/-- R203 (stored values D29): the hundreds, tens and ones of `V[x]`, or five times each, go to `I`, `I + 1` and
`I + 2`, each address reduced modulo `MEM_SIZE`; every other byte and everything else is as before. -/
def Obligations.BcdStoresThreeDigits : Prop :=
  ∀ (s : State) (x : Reg) (v scale : Nat), s.cfg.legal = true → Memory.wf s.cfg s.mem = true →
    v = (s.reg x).toNat → scale = (if s.cfg.bcdMode = .fontAddress then 5 else 1) →
    isJump (.ldB x) = false ∧ ∃ t, exec (.ldB x) s = .next t
      ∧ (t.memRead (s.dataAddr 0)).toNat = scale * (v / 100)
      ∧ (t.memRead (s.dataAddr 1)).toNat = scale * (v / 10 % 10)
      ∧ (t.memRead (s.dataAddr 2)).toNat = scale * (v % 10)
      ∧ OnlyChanges s t (fun p => ∃ j < 3, p = .byte (s.dataAddr j))

/-- R204: `V0..Vx` go to `I .. I + x`, each address reduced modulo `MEM_SIZE`; `I` moves past them if
`COMPAT_MODE` is true and is left otherwise; every other byte and everything else is as before. -/
def Obligations.StoreRegistersWritesMemory : Prop :=
  RowIs 0xF0FF 0xF055 (fun op => .storeRegs (fieldX op)) ∧
  ∀ (s : State) (x : Reg), s.cfg.legal = true → Memory.wf s.cfg s.mem = true →
    isJump (.storeRegs x) = false ∧ ∃ t, exec (.storeRegs x) s = .next t
      ∧ (∀ r : Reg, r ≤ x → t.memRead (s.dataAddr r.val) = s.reg r)
      ∧ (s.cfg.compatMode = true → t.i.toNat = (s.i.toNat + x.val + 1) % 0x10000)
      ∧ (s.cfg.compatMode = false → t.i = s.i)
      ∧ OnlyChanges s t (fun p => (∃ j ≤ x.val, p = .byte (s.dataAddr j)) ∨ p = .i)

/-- R205: `V0..Vx` are loaded from `I .. I + x`, each address reduced modulo `MEM_SIZE`; `I` moves past them if
`COMPAT_MODE` is true and is left otherwise; every other register and everything else is as before. -/
def Obligations.LoadRegistersReadsMemory : Prop :=
  RowIs 0xF0FF 0xF065 (fun op => .loadRegs (fieldX op)) ∧
  ∀ (s : State) (x : Reg), isJump (.loadRegs x) = false ∧ ∃ t, exec (.loadRegs x) s = .next t
    ∧ (∀ r : Reg, t.reg r = if r ≤ x then s.memRead (s.dataAddr r.val) else s.reg r)
    ∧ (s.cfg.compatMode = true → t.i.toNat = (s.i.toNat + x.val + 1) % 0x10000)
    ∧ (s.cfg.compatMode = false → t.i = s.i)
    ∧ OnlyChanges s t (fun p => (∃ r, r ≤ x ∧ p = .reg r) ∨ p = .i)

/-- 20_memory.md R65, 70_reset_and_hazards.md R322: an `FX55` or `FX33` that stores over any of the next two
bytes changes the word that the next step fetches. The word's value is 256 times the byte at the lower address
plus the other (20_memory.md R53, D1), each the stored byte where the store reaches it and the old one where it
does not. -/
def Obligations.StoredWordIsFetchedNext : Prop :=
  ∀ (s : State) (i : Instr) (bytes : List Byte) (first second : Byte),
    s.cfg.legal = true → Memory.wf s.cfg s.mem = true → fetch s = .runs i → s.block = false →
    StoresBytes s i bytes → s.pc.toNat + 3 < s.cfg.memSize →
    ByteAfterStore s bytes (s.pc.toNat + 2) first → ByteAfterStore s bytes (s.pc.toNat + 3) second →
    ∃ t, step s = .next t ∧ t.pc = s.pc + 2 ∧ t.fetchWord.toNat = 256 * first.toNat + second.toNat

/-! ### Keyboard (45_keyboard.md) -/

/-- R230, R231, R232 (D10): the key skips test the key that `V[x]` names, the low nibble naming it above 15
under `LOW_NIBBLE`; under `FAULT` a value above 15 latches KEY_INDEX and changes nothing else. -/
def Obligations.KeySkipsTestTheNamedKey : Prop :=
  ∀ (s : State) (x : Reg) (v : Nat), v = (s.reg x).toNat →
    isJump (.skp x) = true ∧ isJump (.sknp x) = true
    ∧ ((v ≤ 15 ∨ s.cfg.keyIndexPolicy = .lowNibble) →
        (∃ t, exec (.skp x) s = .next t
          ∧ t.pc = s.pc + (if s.key (Fin.ofNat 16 v) = true then 4 else 2)
          ∧ OnlyChanges s t (fun p => p = .pc))
        ∧ (∃ t, exec (.sknp x) s = .next t
          ∧ t.pc = s.pc + (if s.key (Fin.ofNat 16 v) = true then 2 else 4)
          ∧ OnlyChanges s t (fun p => p = .pc)))
    ∧ (15 < v → s.cfg.keyIndexPolicy = .fault →
        (∃ t, exec (.skp x) s = .next t ∧ t.fault = some ⟨.keyIndex, s.pc, encode (.skp x)⟩
          ∧ OnlyChanges s t (fun p => p = .fault))
        ∧ (∃ t, exec (.sknp x) s = .next t ∧ t.fault = some ⟨.keyIndex, s.pc, encode (.sknp x)⟩
          ∧ OnlyChanges s t (fun p => p = .fault)))

/-- R233, R234 (D8, D9): with no key down `FX0A` sets `Block` and changes nothing else; with a key down it puts
the index of one that is down, the lowest under `LOWEST_INDEX`, into `V[x]` and clears `Block`. -/
def Obligations.WaitForKeyBlocksOrTakesAKey : Prop :=
  ∀ (s : State) (x : Reg), isJump (.ldVxK x) = false
    ∧ ((∀ k, s.key k = false) → ∃ t, exec (.ldVxK x) s = .next t ∧ t.block = true
        ∧ OnlyChanges s t (fun p => p = .block))
    ∧ ((∃ k, s.key k = true) → ∃ t k, exec (.ldVxK x) s = .next t ∧ s.key k = true
        ∧ (s.cfg.keySelect = .lowestIndex → t.draws = s.draws ∧ ∀ j, j < k → s.key j = false)
        ∧ (t.reg x).toNat = k.val ∧ t.block = false
        ∧ OnlyChanges s t (fun p => p = .reg x ∨ p = .block ∨ p = .draws))

/-- R235: the state machine of the wait, over whole steps at an `FX0A`: with no key down the machine goes to or
stays in WAIT with `PC` unchanged; with a key down it goes to or stays in RUN, the key's index in `V[x]` and
`PC` advanced by 2. A step from RUN, or from WAIT at an `FX0A`, that leaves the machine in WAIT leaves `PC` where
it was, at the word of an `FX0A`. -/
def Obligations.WaitStateMachine : Prop :=
  ∀ s : State,
    (∀ x, fetch s = .runs (.ldVxK x) →
      ((∀ k, s.key k = false) → step s = .next (s.setBlock true))
      ∧ ((∃ k, s.key k = true) → ∃ t k, step s = .next t ∧ s.key k = true ∧ t.block = false
          ∧ (t.reg x).toNat = k.val ∧ t.pc = s.pc + 2
          ∧ OnlyChanges s t (fun p => p = .reg x ∨ p = .block ∨ p = .draws ∨ p = .pc)))
    ∧ (∀ t, (s.block = false ∨ ∃ x, fetch s = .runs (.ldVxK x)) → step s = .next t → t.block = true →
        t.pc = s.pc ∧ t.fetchWord &&& 0xF0FF = 0xF00A)

/-! ### Timers (46_timers.md) and the host (60_exceptions.md, 70_reset_and_hazards.md) -/

/-- R250, R251, R252: `FX07` reads the delay timer into `V[x]`, `FX15` and `FX18` set the delay and the sound
timer from it; each changes nothing else and is advanced by the machine. -/
def Obligations.TimerInstructionsMoveBytes : Prop :=
  (RowIs 0xF0FF 0xF007 (fun op => .ldVxDt (fieldX op))
    ∧ RowIs 0xF0FF 0xF015 (fun op => .ldDtVx (fieldX op))
    ∧ RowIs 0xF0FF 0xF018 (fun op => .ldStVx (fieldX op)))
  ∧ ∀ (s : State) (x : Reg),
    (isJump (.ldVxDt x) = false ∧ ∃ t, exec (.ldVxDt x) s = .next t
        ∧ t.reg x = s.dt ∧ OnlyChanges s t (fun p => p = .reg x))
      ∧ (isJump (.ldDtVx x) = false ∧ ∃ t, exec (.ldDtVx x) s = .next t
        ∧ t.dt = s.reg x ∧ OnlyChanges s t (fun p => p = .dt))
      ∧ (isJump (.ldStVx x) = false ∧ ∃ t, exec (.ldStVx x) s = .next t
        ∧ t.st = s.reg x ∧ OnlyChanges s t (fun p => p = .st))

/-- 60_exceptions.md R281 (D21): `TICK` decrements both timers, clamped at 0, `DEC_DT` and `DEC_ST` one each, in
every state and with no other effect. -/
def Obligations.TicksDecrementTheTimers : Prop :=
  ∀ s : State,
    (∃ t, perform .tick s = .next t ∧ t.dt.toNat = s.dt.toNat - 1 ∧ t.st.toNat = s.st.toNat - 1
        ∧ OnlyChanges s t (fun p => p = .dt ∨ p = .st))
      ∧ (∃ t, perform .decDt s = .next t ∧ t.dt.toNat = s.dt.toNat - 1
        ∧ OnlyChanges s t (fun p => p = .dt))
      ∧ (∃ t, perform .decSt s = .next t ∧ t.st.toNat = s.st.toNat - 1
        ∧ OnlyChanges s t (fun p => p = .st))

/-- 60_exceptions.md R284 (D31): `KEY_DOWN` and `KEY_UP` set one key of 0..15 and change nothing else; any other
index is refused. -/
def Obligations.KeyEventsSetOneKey : Prop :=
  ∀ s : State,
    (∀ k : Fin 16, ∃ t, perform (.keyDown k.val) s = .next t ∧ t.key k = true
        ∧ (∀ j, j ≠ k → t.key j = s.key j) ∧ OnlyChanges s t (fun p => p = .keys))
      ∧ (∀ k : Fin 16, ∃ t, perform (.keyUp k.val) s = .next t ∧ t.key k = false
        ∧ (∀ j, j ≠ k → t.key j = s.key j) ∧ OnlyChanges s t (fun p => p = .keys))
      ∧ (∀ n, 16 ≤ n → perform (.keyDown n) s = .refused (.noSuchKey n)
        ∧ perform (.keyUp n) s = .refused (.noSuchKey n))

/-- 10_state.md R46, 70_reset_and_hazards.md R310, R311 (values D14, keys D15; log 3, log 6): construction and
`RESET` leave every element at its reset value; construction releases the keys, `RESET` keeps them and the
configuration. -/
def Obligations.ResetLeavesTheResetValues : Prop :=
  (∀ c : Config, c.legal = true → AtResetValues c (State.constructed c)
      ∧ ∀ k, (State.constructed c).key k = false)
  ∧ (AtResetValues Config.default State.reset ∧ State.reset.pc = 0x200
      ∧ ∀ k, State.reset.key k = false)
  ∧ (∀ s : State, s.cfg.legal = true → ∃ t, perform .reset s = .next t ∧ AtResetValues s.cfg t
      ∧ t.keys = s.keys ∧ t.draws = s.draws)

/-- 70_reset_and_hazards.md R312, R313, R314 (D19): a `LOAD` that fits resets the machine, puts the image at its
origin, by default `LOAD_ORIGIN`, and `PC` at the origin; one that does not fit is refused. -/
def Obligations.LoadPlacesTheImage : Prop :=
  ∀ (s : State) (image : List Byte) (given : Option Nat) (origin : Nat), s.cfg.legal = true →
    (given = some origin ∨ (given = none ∧ origin = s.cfg.loadOrigin)) →
    (s.cfg.memSize < origin + image.length →
      perform (.load image given) s = .refused .imageDoesNotFit)
    ∧ (origin + image.length ≤ s.cfg.memSize → ∃ t, perform (.load image given) s = .next t
        ∧ t.pc.toNat = origin ∧ (∀ j (h : j < image.length), t.memRead (origin + j) = image[j])
        ∧ OnlyChanges s.afterReset t
            (fun p => p = .pc ∨ ∃ a, p = .byte a ∧ origin ≤ a ∧ a < origin + image.length))

/-- "a fresh machine's memory holds only the font; its first step at 0x200 reads the sentinel 0x0000 and exits"
(60_exceptions.md R292), for every legal configuration whose origin is above the font and not the last byte. The
sentinel is read because the bytes above the font are 0 after construction, which is the spec's own choice D14
(log 6). -/
def Obligations.AFreshMachineExitsAtItsFirstStep : Prop :=
  (∀ c : Config, c.legal = true → 80 ≤ c.loadOrigin → c.loadOrigin + 1 ≠ c.memSize →
    step (State.constructed c) = .next ((State.constructed c).setExit 0))
  ∧ step State.reset = .next (State.reset.setExit 0)
end

