-- ==== Sys2Proof/Laws/Decode.lean ====
section
/-! SUPPORT. The fields of encoded words, the rows a word matches, and the opcode table by mask and match
(30_encoding.md). -/

namespace Sys2Proof

/-! ### Fields of words -/

section
variable (a b c d : Nibble) (k : Byte) (n : Addr12) (x : Reg) (op : Word)

@[simp] theorem regOfNibble_nibbleOfReg : regOfNibble (nibbleOfReg x) = x := rfl

@[simp] theorem nibbleOfReg_regOfNibble : nibbleOfReg (regOfNibble a) = a := rfl

/-! The bits of the words put together. -/

theorem wordOfNibbles_getLsbD (i : Nat) : (wordOfNibbles a b c d).getLsbD i
    = if i < 4 then d.getLsbD i else if i < 8 then c.getLsbD (i - 4)
      else if i < 12 then b.getLsbD (i - 8) else a.getLsbD (i - 12) := by
  change BitVec.getLsbD (w := 4 + 4 + 4 + 4) (a ++ b ++ c ++ d) i = _
  simp only [BitVec.getLsbD_append, Nat.sub_sub]
  split
  · rfl
  · by_cases h8 : i < 8
    · simp [h8, show i - 4 < 4 by omega]
    · by_cases h12 : i < 12
      · simp [h8, h12, show ¬ i - 4 < 4 by omega, show i - 8 < 4 by omega]
      · simp [h8, h12, show ¬ i - 4 < 4 by omega, show ¬ i - 8 < 4 by omega]

theorem wordXNN_getLsbD (i : Nat) : (wordXNN a x k).getLsbD i
    = if i < 8 then k.getLsbD i else if i < 12 then (nibbleOfReg x).getLsbD (i - 8)
      else a.getLsbD (i - 12) := by
  change BitVec.getLsbD (w := 4 + 4 + 8) (a ++ nibbleOfReg x ++ k) i = _
  simp only [BitVec.getLsbD_append, Nat.sub_sub]
  split
  · rfl
  · by_cases h12 : i < 12
    · simp [h12, show i - 8 < 4 by omega]
    · simp [h12, show ¬ i - 8 < 4 by omega]

theorem wordNNN_getLsbD (i : Nat) : (wordNNN a n).getLsbD i
    = if i < 12 then n.getLsbD i else a.getLsbD (i - 12) := by
  change BitVec.getLsbD (w := 4 + 12) (a ++ n) i = _
  simp only [BitVec.getLsbD_append]

theorem wordOfBytes_getLsbD (f g : Byte) (i : Nat) : (wordOfBytes f g).getLsbD i
    = if i < 8 then g.getLsbD i else f.getLsbD (i - 8) := by
  change BitVec.getLsbD (w := 8 + 8) (f ++ g) i = _
  simp only [BitVec.getLsbD_append]

/-! The fields of the words put together. -/

@[simp] theorem nib3_wordOfNibbles : nib3 (wordOfNibbles a b c d) = a := by
  apply BitVec.eq_of_getLsbD_eq
  intro i hi
  interval_cases i <;> simp [-BitVec.getLsbD_eq_getElem, nib3, wordOfNibbles_getLsbD]

@[simp] theorem nib2_wordOfNibbles : nib2 (wordOfNibbles a b c d) = b := by
  apply BitVec.eq_of_getLsbD_eq
  intro i hi
  interval_cases i <;> simp [-BitVec.getLsbD_eq_getElem, nib2, wordOfNibbles_getLsbD]

@[simp] theorem nib1_wordOfNibbles : nib1 (wordOfNibbles a b c d) = c := by
  apply BitVec.eq_of_getLsbD_eq
  intro i hi
  interval_cases i <;> simp [-BitVec.getLsbD_eq_getElem, nib1, wordOfNibbles_getLsbD]

@[simp] theorem nib0_wordOfNibbles : nib0 (wordOfNibbles a b c d) = d := by
  apply BitVec.eq_of_getLsbD_eq
  intro i hi
  interval_cases i <;> simp [-BitVec.getLsbD_eq_getElem, nib0, wordOfNibbles_getLsbD]

@[simp] theorem nib3_wordXNN : nib3 (wordXNN a x k) = a := by
  apply BitVec.eq_of_getLsbD_eq
  intro i hi
  interval_cases i <;> simp [-BitVec.getLsbD_eq_getElem, nib3, wordXNN_getLsbD]

@[simp] theorem nib2_wordXNN : nib2 (wordXNN a x k) = nibbleOfReg x := by
  apply BitVec.eq_of_getLsbD_eq
  intro i hi
  interval_cases i <;> simp [-BitVec.getLsbD_eq_getElem, nib2, wordXNN_getLsbD]

@[simp] theorem nib1_wordXNN : nib1 (wordXNN a x k) = k.extractLsb' 4 4 := by
  apply BitVec.eq_of_getLsbD_eq
  intro i hi
  interval_cases i <;> simp [-BitVec.getLsbD_eq_getElem, nib1, wordXNN_getLsbD]

@[simp] theorem nib0_wordXNN : nib0 (wordXNN a x k) = k.extractLsb' 0 4 := by
  apply BitVec.eq_of_getLsbD_eq
  intro i hi
  interval_cases i <;> simp [-BitVec.getLsbD_eq_getElem, nib0, wordXNN_getLsbD]

@[simp] theorem fieldNN_wordXNN : fieldNN (wordXNN a x k) = k := by
  apply BitVec.eq_of_getLsbD_eq
  intro i hi
  interval_cases i <;> simp [-BitVec.getLsbD_eq_getElem, fieldNN, wordXNN_getLsbD]

@[simp] theorem nib3_wordNNN : nib3 (wordNNN a n) = a := by
  apply BitVec.eq_of_getLsbD_eq
  intro i hi
  interval_cases i <;> simp [-BitVec.getLsbD_eq_getElem, nib3, wordNNN_getLsbD]

@[simp] theorem fieldNNN_wordNNN : fieldNNN (wordNNN a n) = n := by
  apply BitVec.eq_of_getLsbD_eq
  intro i hi
  interval_cases i <;> simp [-BitVec.getLsbD_eq_getElem, fieldNNN, wordNNN_getLsbD]

theorem fieldX_eq : fieldX op = regOfNibble (nib2 op) := rfl
theorem fieldY_eq : fieldY op = regOfNibble (nib1 op) := rfl
theorem fieldN_eq : fieldN op = nib0 op := rfl

/-- A word is its four nibbles. -/
theorem wordOfNibbles_nibs : wordOfNibbles (nib3 op) (nib2 op) (nib1 op) (nib0 op) = op := by
  apply BitVec.eq_of_getLsbD_eq
  intro i hi
  interval_cases i <;> simp [-BitVec.getLsbD_eq_getElem, nib0, nib1, nib2, nib3, wordOfNibbles_getLsbD]

/-- A word of format `dXYn` is its nibbles. -/
theorem wordXYN_eq (x y : Reg) : wordXYN a x y d = wordOfNibbles a (nibbleOfReg x) (nibbleOfReg y) d := rfl

/-- A word of format `dXNN` is its nibbles. -/
theorem wordXNN_eq :
    wordXNN a x k = wordOfNibbles a (nibbleOfReg x) (k.extractLsb' 4 4) (k.extractLsb' 0 4) := by
  apply BitVec.eq_of_getLsbD_eq
  intro i hi
  interval_cases i <;> simp [-BitVec.getLsbD_eq_getElem, wordXNN_getLsbD, wordOfNibbles_getLsbD]

/-- A word of format `dNNN` is its nibbles. -/
theorem wordNNN_eq :
    wordNNN a n = wordOfNibbles a (n.extractLsb' 8 4) (n.extractLsb' 4 4) (n.extractLsb' 0 4) := by
  apply BitVec.eq_of_getLsbD_eq
  intro i hi
  interval_cases i <;> simp [-BitVec.getLsbD_eq_getElem, wordNNN_getLsbD, wordOfNibbles_getLsbD]

/-- Two words with the same nibbles are equal. -/
theorem wordOfNibbles_inj {a' b' c' d' : Nibble} :
    wordOfNibbles a b c d = wordOfNibbles a' b' c' d' ↔ a = a' ∧ b = b' ∧ c = c' ∧ d = d' := by
  constructor
  · intro h
    exact ⟨by simpa using congrArg nib3 h, by simpa using congrArg nib2 h,
      by simpa using congrArg nib1 h, by simpa using congrArg nib0 h⟩
  · rintro ⟨rfl, rfl, rfl, rfl⟩; rfl

/-- `and` works nibble by nibble. -/
theorem wordOfNibbles_and (a' b' c' d' : Nibble) :
    wordOfNibbles a b c d &&& wordOfNibbles a' b' c' d'
      = wordOfNibbles (a &&& a') (b &&& b') (c &&& c') (d &&& d') := by
  apply BitVec.eq_of_getLsbD_eq
  intro i hi
  interval_cases i <;> simp [-BitVec.getLsbD_eq_getElem, wordOfNibbles_getLsbD]

/-- The number that two bytes spell as a word: the first is the more significant (20_memory.md R53). -/
theorem wordOfBytes_toNat (f g : Byte) : (wordOfBytes f g).toNat = 256 * f.toNat + g.toNat := by
  have hg : g.toNat < 2 ^ 8 := g.isLt
  change (BitVec.toNat (w := 8 + 8) (f ++ g)) = _
  rw [BitVec.toNat_append, ← Nat.shiftLeft_add_eq_or_of_lt hg, Nat.shiftLeft_eq]
  omega

/-- The two bytes of a word, put together again (20_memory.md R53). -/
@[simp] theorem wordOfBytes_bytes : wordOfBytes (firstByte op) (secondByte op) = op := by
  apply BitVec.eq_of_getLsbD_eq
  intro i hi
  interval_cases i <;> simp [-BitVec.getLsbD_eq_getElem, firstByte, secondByte, wordOfBytes_getLsbD]

end

/-! ### Formats (30_encoding.md R72) -/

/-- A fixed digit accepts itself, a placeholder everything: by its nibbles of mask and match. -/
theorem FormatChar.accepts_iff (f : FormatChar) (n : Nibble) :
    f.accepts n = true ↔ n &&& f.maskNibble = f.matchNibble := by
  cases f with
  | digit d =>
    have : n &&& 0xF#4 = n := by
      ext i hi
      interval_cases i <;> simp
    simp [FormatChar.accepts, FormatChar.maskNibble, FormatChar.matchNibble, this]
  | X => simp [FormatChar.accepts, FormatChar.maskNibble, FormatChar.matchNibble]
  | Y => simp [FormatChar.accepts, FormatChar.maskNibble, FormatChar.matchNibble]
  | N => simp [FormatChar.accepts, FormatChar.maskNibble, FormatChar.matchNibble]

end Sys2Proof
end

