-- ==== Sys2Proof/Laws/State.lean ====
section
/-! SUPPORT. The small lemmas of the state: one per field per update, and the register, key and memory
reads over every update that leaves them alone, all true by rfl. -/

namespace Sys2Proof.Machine.State

section
variable (s : State) (r : Reg) (b : Byte)

@[simp] theorem setReg_cfg : (s.setReg r b).cfg = s.cfg := rfl
@[simp] theorem setReg_v : (s.setReg r b).v = s.v.set r.val b := rfl
@[simp] theorem setReg_i : (s.setReg r b).i = s.i := rfl
@[simp] theorem setReg_pc : (s.setReg r b).pc = s.pc := rfl
@[simp] theorem setReg_stack : (s.setReg r b).stack = s.stack := rfl
@[simp] theorem setReg_dt : (s.setReg r b).dt = s.dt := rfl
@[simp] theorem setReg_st : (s.setReg r b).st = s.st := rfl
@[simp] theorem setReg_mem : (s.setReg r b).mem = s.mem := rfl
@[simp] theorem setReg_screen : (s.setReg r b).screen = s.screen := rfl
@[simp] theorem setReg_keys : (s.setReg r b).keys = s.keys := rfl
@[simp] theorem setReg_block : (s.setReg r b).block = s.block := rfl
@[simp] theorem setReg_exit : (s.setReg r b).exit = s.exit := rfl
@[simp] theorem setReg_fault : (s.setReg r b).fault = s.fault := rfl
@[simp] theorem setReg_draws : (s.setReg r b).draws = s.draws := rfl
@[simp] theorem setReg_key (q : Fin 16) : (s.setReg r b).key q = s.key q := rfl
@[simp] theorem setReg_memRead (q : Nat) : (s.setReg r b).memRead q = s.memRead q := rfl

end

section
variable (s : State) (w : Word)

@[simp] theorem setI_cfg : (s.setI w).cfg = s.cfg := rfl
@[simp] theorem setI_v : (s.setI w).v = s.v := rfl
@[simp] theorem setI_i : (s.setI w).i = w := rfl
@[simp] theorem setI_pc : (s.setI w).pc = s.pc := rfl
@[simp] theorem setI_stack : (s.setI w).stack = s.stack := rfl
@[simp] theorem setI_dt : (s.setI w).dt = s.dt := rfl
@[simp] theorem setI_st : (s.setI w).st = s.st := rfl
@[simp] theorem setI_mem : (s.setI w).mem = s.mem := rfl
@[simp] theorem setI_screen : (s.setI w).screen = s.screen := rfl
@[simp] theorem setI_keys : (s.setI w).keys = s.keys := rfl
@[simp] theorem setI_block : (s.setI w).block = s.block := rfl
@[simp] theorem setI_exit : (s.setI w).exit = s.exit := rfl
@[simp] theorem setI_fault : (s.setI w).fault = s.fault := rfl
@[simp] theorem setI_draws : (s.setI w).draws = s.draws := rfl
@[simp] theorem setI_reg (q : Reg) : (s.setI w).reg q = s.reg q := rfl
@[simp] theorem setI_key (q : Fin 16) : (s.setI w).key q = s.key q := rfl
@[simp] theorem setI_memRead (q : Nat) : (s.setI w).memRead q = s.memRead q := rfl

end

section
variable (s : State) (w : Word)

@[simp] theorem setPc_cfg : (s.setPc w).cfg = s.cfg := rfl
@[simp] theorem setPc_v : (s.setPc w).v = s.v := rfl
@[simp] theorem setPc_i : (s.setPc w).i = s.i := rfl
@[simp] theorem setPc_pc : (s.setPc w).pc = w := rfl
@[simp] theorem setPc_stack : (s.setPc w).stack = s.stack := rfl
@[simp] theorem setPc_dt : (s.setPc w).dt = s.dt := rfl
@[simp] theorem setPc_st : (s.setPc w).st = s.st := rfl
@[simp] theorem setPc_mem : (s.setPc w).mem = s.mem := rfl
@[simp] theorem setPc_screen : (s.setPc w).screen = s.screen := rfl
@[simp] theorem setPc_keys : (s.setPc w).keys = s.keys := rfl
@[simp] theorem setPc_block : (s.setPc w).block = s.block := rfl
@[simp] theorem setPc_exit : (s.setPc w).exit = s.exit := rfl
@[simp] theorem setPc_fault : (s.setPc w).fault = s.fault := rfl
@[simp] theorem setPc_draws : (s.setPc w).draws = s.draws := rfl
@[simp] theorem setPc_reg (q : Reg) : (s.setPc w).reg q = s.reg q := rfl
@[simp] theorem setPc_key (q : Fin 16) : (s.setPc w).key q = s.key q := rfl
@[simp] theorem setPc_memRead (q : Nat) : (s.setPc w).memRead q = s.memRead q := rfl

end

section
variable (s : State) (b : Byte)

@[simp] theorem setDt_cfg : (s.setDt b).cfg = s.cfg := rfl
@[simp] theorem setDt_v : (s.setDt b).v = s.v := rfl
@[simp] theorem setDt_i : (s.setDt b).i = s.i := rfl
@[simp] theorem setDt_pc : (s.setDt b).pc = s.pc := rfl
@[simp] theorem setDt_stack : (s.setDt b).stack = s.stack := rfl
@[simp] theorem setDt_dt : (s.setDt b).dt = b := rfl
@[simp] theorem setDt_st : (s.setDt b).st = s.st := rfl
@[simp] theorem setDt_mem : (s.setDt b).mem = s.mem := rfl
@[simp] theorem setDt_screen : (s.setDt b).screen = s.screen := rfl
@[simp] theorem setDt_keys : (s.setDt b).keys = s.keys := rfl
@[simp] theorem setDt_block : (s.setDt b).block = s.block := rfl
@[simp] theorem setDt_exit : (s.setDt b).exit = s.exit := rfl
@[simp] theorem setDt_fault : (s.setDt b).fault = s.fault := rfl
@[simp] theorem setDt_draws : (s.setDt b).draws = s.draws := rfl
@[simp] theorem setDt_reg (q : Reg) : (s.setDt b).reg q = s.reg q := rfl
@[simp] theorem setDt_key (q : Fin 16) : (s.setDt b).key q = s.key q := rfl
@[simp] theorem setDt_memRead (q : Nat) : (s.setDt b).memRead q = s.memRead q := rfl

end

section
variable (s : State) (b : Byte)

@[simp] theorem setSt_cfg : (s.setSt b).cfg = s.cfg := rfl
@[simp] theorem setSt_v : (s.setSt b).v = s.v := rfl
@[simp] theorem setSt_i : (s.setSt b).i = s.i := rfl
@[simp] theorem setSt_pc : (s.setSt b).pc = s.pc := rfl
@[simp] theorem setSt_stack : (s.setSt b).stack = s.stack := rfl
@[simp] theorem setSt_dt : (s.setSt b).dt = s.dt := rfl
@[simp] theorem setSt_st : (s.setSt b).st = b := rfl
@[simp] theorem setSt_mem : (s.setSt b).mem = s.mem := rfl
@[simp] theorem setSt_screen : (s.setSt b).screen = s.screen := rfl
@[simp] theorem setSt_keys : (s.setSt b).keys = s.keys := rfl
@[simp] theorem setSt_block : (s.setSt b).block = s.block := rfl
@[simp] theorem setSt_exit : (s.setSt b).exit = s.exit := rfl
@[simp] theorem setSt_fault : (s.setSt b).fault = s.fault := rfl
@[simp] theorem setSt_draws : (s.setSt b).draws = s.draws := rfl
@[simp] theorem setSt_reg (q : Reg) : (s.setSt b).reg q = s.reg q := rfl
@[simp] theorem setSt_key (q : Fin 16) : (s.setSt b).key q = s.key q := rfl
@[simp] theorem setSt_memRead (q : Nat) : (s.setSt b).memRead q = s.memRead q := rfl

end

section
variable (s : State) (g : Screen)

@[simp] theorem setScreen_cfg : (s.setScreen g).cfg = s.cfg := rfl
@[simp] theorem setScreen_v : (s.setScreen g).v = s.v := rfl
@[simp] theorem setScreen_i : (s.setScreen g).i = s.i := rfl
@[simp] theorem setScreen_pc : (s.setScreen g).pc = s.pc := rfl
@[simp] theorem setScreen_stack : (s.setScreen g).stack = s.stack := rfl
@[simp] theorem setScreen_dt : (s.setScreen g).dt = s.dt := rfl
@[simp] theorem setScreen_st : (s.setScreen g).st = s.st := rfl
@[simp] theorem setScreen_mem : (s.setScreen g).mem = s.mem := rfl
@[simp] theorem setScreen_screen : (s.setScreen g).screen = g := rfl
@[simp] theorem setScreen_keys : (s.setScreen g).keys = s.keys := rfl
@[simp] theorem setScreen_block : (s.setScreen g).block = s.block := rfl
@[simp] theorem setScreen_exit : (s.setScreen g).exit = s.exit := rfl
@[simp] theorem setScreen_fault : (s.setScreen g).fault = s.fault := rfl
@[simp] theorem setScreen_draws : (s.setScreen g).draws = s.draws := rfl
@[simp] theorem setScreen_reg (q : Reg) : (s.setScreen g).reg q = s.reg q := rfl
@[simp] theorem setScreen_key (q : Fin 16) : (s.setScreen g).key q = s.key q := rfl
@[simp] theorem setScreen_memRead (q : Nat) : (s.setScreen g).memRead q = s.memRead q := rfl

end

section
variable (s : State) (k : Fin 16) (b : Bool)

@[simp] theorem setKey_cfg : (s.setKey k b).cfg = s.cfg := rfl
@[simp] theorem setKey_v : (s.setKey k b).v = s.v := rfl
@[simp] theorem setKey_i : (s.setKey k b).i = s.i := rfl
@[simp] theorem setKey_pc : (s.setKey k b).pc = s.pc := rfl
@[simp] theorem setKey_stack : (s.setKey k b).stack = s.stack := rfl
@[simp] theorem setKey_dt : (s.setKey k b).dt = s.dt := rfl
@[simp] theorem setKey_st : (s.setKey k b).st = s.st := rfl
@[simp] theorem setKey_mem : (s.setKey k b).mem = s.mem := rfl
@[simp] theorem setKey_screen : (s.setKey k b).screen = s.screen := rfl
@[simp] theorem setKey_keys : (s.setKey k b).keys = s.keys.set k.val b := rfl
@[simp] theorem setKey_block : (s.setKey k b).block = s.block := rfl
@[simp] theorem setKey_exit : (s.setKey k b).exit = s.exit := rfl
@[simp] theorem setKey_fault : (s.setKey k b).fault = s.fault := rfl
@[simp] theorem setKey_draws : (s.setKey k b).draws = s.draws := rfl
@[simp] theorem setKey_reg (q : Reg) : (s.setKey k b).reg q = s.reg q := rfl
@[simp] theorem setKey_memRead (q : Nat) : (s.setKey k b).memRead q = s.memRead q := rfl

end

section
variable (s : State) (b : Bool)

@[simp] theorem setBlock_cfg : (s.setBlock b).cfg = s.cfg := rfl
@[simp] theorem setBlock_v : (s.setBlock b).v = s.v := rfl
@[simp] theorem setBlock_i : (s.setBlock b).i = s.i := rfl
@[simp] theorem setBlock_pc : (s.setBlock b).pc = s.pc := rfl
@[simp] theorem setBlock_stack : (s.setBlock b).stack = s.stack := rfl
@[simp] theorem setBlock_dt : (s.setBlock b).dt = s.dt := rfl
@[simp] theorem setBlock_st : (s.setBlock b).st = s.st := rfl
@[simp] theorem setBlock_mem : (s.setBlock b).mem = s.mem := rfl
@[simp] theorem setBlock_screen : (s.setBlock b).screen = s.screen := rfl
@[simp] theorem setBlock_keys : (s.setBlock b).keys = s.keys := rfl
@[simp] theorem setBlock_block : (s.setBlock b).block = b := rfl
@[simp] theorem setBlock_exit : (s.setBlock b).exit = s.exit := rfl
@[simp] theorem setBlock_fault : (s.setBlock b).fault = s.fault := rfl
@[simp] theorem setBlock_draws : (s.setBlock b).draws = s.draws := rfl
@[simp] theorem setBlock_reg (q : Reg) : (s.setBlock b).reg q = s.reg q := rfl
@[simp] theorem setBlock_key (q : Fin 16) : (s.setBlock b).key q = s.key q := rfl
@[simp] theorem setBlock_memRead (q : Nat) : (s.setBlock b).memRead q = s.memRead q := rfl

end

section
variable (s : State) (n : Nat)

@[simp] theorem setExit_cfg : (s.setExit n).cfg = s.cfg := rfl
@[simp] theorem setExit_v : (s.setExit n).v = s.v := rfl
@[simp] theorem setExit_i : (s.setExit n).i = s.i := rfl
@[simp] theorem setExit_pc : (s.setExit n).pc = s.pc := rfl
@[simp] theorem setExit_stack : (s.setExit n).stack = s.stack := rfl
@[simp] theorem setExit_dt : (s.setExit n).dt = s.dt := rfl
@[simp] theorem setExit_st : (s.setExit n).st = s.st := rfl
@[simp] theorem setExit_mem : (s.setExit n).mem = s.mem := rfl
@[simp] theorem setExit_screen : (s.setExit n).screen = s.screen := rfl
@[simp] theorem setExit_keys : (s.setExit n).keys = s.keys := rfl
@[simp] theorem setExit_block : (s.setExit n).block = s.block := rfl
@[simp] theorem setExit_exit : (s.setExit n).exit = some n := rfl
@[simp] theorem setExit_fault : (s.setExit n).fault = s.fault := rfl
@[simp] theorem setExit_draws : (s.setExit n).draws = s.draws := rfl
@[simp] theorem setExit_reg (q : Reg) : (s.setExit n).reg q = s.reg q := rfl
@[simp] theorem setExit_key (q : Fin 16) : (s.setExit n).key q = s.key q := rfl
@[simp] theorem setExit_memRead (q : Nat) : (s.setExit n).memRead q = s.memRead q := rfl

end

section
variable (s : State)

@[simp] theorem countDraw_cfg : (s.countDraw).cfg = s.cfg := rfl
@[simp] theorem countDraw_v : (s.countDraw).v = s.v := rfl
@[simp] theorem countDraw_i : (s.countDraw).i = s.i := rfl
@[simp] theorem countDraw_pc : (s.countDraw).pc = s.pc := rfl
@[simp] theorem countDraw_stack : (s.countDraw).stack = s.stack := rfl
@[simp] theorem countDraw_dt : (s.countDraw).dt = s.dt := rfl
@[simp] theorem countDraw_st : (s.countDraw).st = s.st := rfl
@[simp] theorem countDraw_mem : (s.countDraw).mem = s.mem := rfl
@[simp] theorem countDraw_screen : (s.countDraw).screen = s.screen := rfl
@[simp] theorem countDraw_keys : (s.countDraw).keys = s.keys := rfl
@[simp] theorem countDraw_block : (s.countDraw).block = s.block := rfl
@[simp] theorem countDraw_exit : (s.countDraw).exit = s.exit := rfl
@[simp] theorem countDraw_fault : (s.countDraw).fault = s.fault := rfl
@[simp] theorem countDraw_draws : (s.countDraw).draws = s.draws + 1 := rfl
@[simp] theorem countDraw_reg (q : Reg) : (s.countDraw).reg q = s.reg q := rfl
@[simp] theorem countDraw_key (q : Fin 16) : (s.countDraw).key q = s.key q := rfl
@[simp] theorem countDraw_memRead (q : Nat) : (s.countDraw).memRead q = s.memRead q := rfl

end

section
variable (s : State) (a : Nat) (b : Byte)

@[simp] theorem memWrite_cfg : (s.memWrite a b).cfg = s.cfg := rfl
@[simp] theorem memWrite_v : (s.memWrite a b).v = s.v := rfl
@[simp] theorem memWrite_i : (s.memWrite a b).i = s.i := rfl
@[simp] theorem memWrite_pc : (s.memWrite a b).pc = s.pc := rfl
@[simp] theorem memWrite_stack : (s.memWrite a b).stack = s.stack := rfl
@[simp] theorem memWrite_dt : (s.memWrite a b).dt = s.dt := rfl
@[simp] theorem memWrite_st : (s.memWrite a b).st = s.st := rfl
@[simp] theorem memWrite_mem : (s.memWrite a b).mem = Memory.write s.cfg s.mem (a % s.cfg.memSize) b := rfl
@[simp] theorem memWrite_screen : (s.memWrite a b).screen = s.screen := rfl
@[simp] theorem memWrite_keys : (s.memWrite a b).keys = s.keys := rfl
@[simp] theorem memWrite_block : (s.memWrite a b).block = s.block := rfl
@[simp] theorem memWrite_exit : (s.memWrite a b).exit = s.exit := rfl
@[simp] theorem memWrite_fault : (s.memWrite a b).fault = s.fault := rfl
@[simp] theorem memWrite_draws : (s.memWrite a b).draws = s.draws := rfl
@[simp] theorem memWrite_reg (q : Reg) : (s.memWrite a b).reg q = s.reg q := rfl
@[simp] theorem memWrite_key (q : Fin 16) : (s.memWrite a b).key q = s.key q := rfl

end

section
variable (s : State) (w : Word)

@[simp] theorem push_cfg : (s.push w).cfg = s.cfg := rfl
@[simp] theorem push_v : (s.push w).v = s.v := rfl
@[simp] theorem push_i : (s.push w).i = s.i := rfl
@[simp] theorem push_pc : (s.push w).pc = s.pc := rfl
@[simp] theorem push_stack : (s.push w).stack = w :: s.stack := rfl
@[simp] theorem push_dt : (s.push w).dt = s.dt := rfl
@[simp] theorem push_st : (s.push w).st = s.st := rfl
@[simp] theorem push_mem : (s.push w).mem = s.mem := rfl
@[simp] theorem push_screen : (s.push w).screen = s.screen := rfl
@[simp] theorem push_keys : (s.push w).keys = s.keys := rfl
@[simp] theorem push_block : (s.push w).block = s.block := rfl
@[simp] theorem push_exit : (s.push w).exit = s.exit := rfl
@[simp] theorem push_fault : (s.push w).fault = s.fault := rfl
@[simp] theorem push_draws : (s.push w).draws = s.draws := rfl
@[simp] theorem push_reg (q : Reg) : (s.push w).reg q = s.reg q := rfl
@[simp] theorem push_key (q : Fin 16) : (s.push w).key q = s.key q := rfl
@[simp] theorem push_memRead (q : Nat) : (s.push w).memRead q = s.memRead q := rfl

end

section
variable (s : State) (l : List Word)

@[simp] theorem setStack_cfg : (s.setStack l).cfg = s.cfg := rfl
@[simp] theorem setStack_v : (s.setStack l).v = s.v := rfl
@[simp] theorem setStack_i : (s.setStack l).i = s.i := rfl
@[simp] theorem setStack_pc : (s.setStack l).pc = s.pc := rfl
@[simp] theorem setStack_stack : (s.setStack l).stack = l := rfl
@[simp] theorem setStack_dt : (s.setStack l).dt = s.dt := rfl
@[simp] theorem setStack_st : (s.setStack l).st = s.st := rfl
@[simp] theorem setStack_mem : (s.setStack l).mem = s.mem := rfl
@[simp] theorem setStack_screen : (s.setStack l).screen = s.screen := rfl
@[simp] theorem setStack_keys : (s.setStack l).keys = s.keys := rfl
@[simp] theorem setStack_block : (s.setStack l).block = s.block := rfl
@[simp] theorem setStack_exit : (s.setStack l).exit = s.exit := rfl
@[simp] theorem setStack_fault : (s.setStack l).fault = s.fault := rfl
@[simp] theorem setStack_draws : (s.setStack l).draws = s.draws := rfl
@[simp] theorem setStack_reg (q : Reg) : (s.setStack l).reg q = s.reg q := rfl
@[simp] theorem setStack_key (q : Fin 16) : (s.setStack l).key q = s.key q := rfl
@[simp] theorem setStack_memRead (q : Nat) : (s.setStack l).memRead q = s.memRead q := rfl

end

section
variable (s : State) (k : Fault) (op : Word)

@[simp] theorem raise_cfg : (s.raise k op).cfg = s.cfg := rfl
@[simp] theorem raise_v : (s.raise k op).v = s.v := rfl
@[simp] theorem raise_i : (s.raise k op).i = s.i := rfl
@[simp] theorem raise_pc : (s.raise k op).pc = s.pc := rfl
@[simp] theorem raise_stack : (s.raise k op).stack = s.stack := rfl
@[simp] theorem raise_dt : (s.raise k op).dt = s.dt := rfl
@[simp] theorem raise_st : (s.raise k op).st = s.st := rfl
@[simp] theorem raise_mem : (s.raise k op).mem = s.mem := rfl
@[simp] theorem raise_screen : (s.raise k op).screen = s.screen := rfl
@[simp] theorem raise_keys : (s.raise k op).keys = s.keys := rfl
@[simp] theorem raise_block : (s.raise k op).block = s.block := rfl
@[simp] theorem raise_exit : (s.raise k op).exit = s.exit := rfl
@[simp] theorem raise_fault : (s.raise k op).fault = some ⟨k, s.pc, op⟩ := rfl
@[simp] theorem raise_draws : (s.raise k op).draws = s.draws := rfl
@[simp] theorem raise_reg (q : Reg) : (s.raise k op).reg q = s.reg q := rfl
@[simp] theorem raise_key (q : Fin 16) : (s.raise k op).key q = s.key q := rfl
@[simp] theorem raise_memRead (q : Nat) : (s.raise k op).memRead q = s.memRead q := rfl

end

section
variable (s : State)

@[simp] theorem afterReset_cfg : s.afterReset.cfg = s.cfg := rfl
@[simp] theorem afterReset_v : s.afterReset.v = Vector.replicate 16 0 := rfl
@[simp] theorem afterReset_i : s.afterReset.i = 0 := rfl
@[simp] theorem afterReset_pc : s.afterReset.pc = BitVec.ofNat 16 s.cfg.loadOrigin := rfl
@[simp] theorem afterReset_stack : s.afterReset.stack = [] := rfl
@[simp] theorem afterReset_dt : s.afterReset.dt = 0 := rfl
@[simp] theorem afterReset_st : s.afterReset.st = 0 := rfl
@[simp] theorem afterReset_mem : s.afterReset.mem = [] := rfl
@[simp] theorem afterReset_screen : s.afterReset.screen = Screen.blank := rfl
@[simp] theorem afterReset_keys : s.afterReset.keys = s.keys := rfl
@[simp] theorem afterReset_block : s.afterReset.block = false := rfl
@[simp] theorem afterReset_exit : s.afterReset.exit = none := rfl
@[simp] theorem afterReset_fault : s.afterReset.fault = none := rfl
@[simp] theorem afterReset_draws : s.afterReset.draws = s.draws := rfl

end

end Sys2Proof.Machine.State
end

