-- ==== Sys2Proof/Laws/Memory.lean ====
section
/-! SUPPORT. The laws of memory: a read after a write, and that every memory operation keeps the canonical
form. -/

namespace Sys2Proof.Machine

/-- An address below every listed one reads as reset left it. -/
theorem Memory.read_below (c : Config) (m : Memory) (a : Nat) (h : ∀ cell ∈ m, a < cell.1) :
    Memory.read c m a = c.resetByte a := by
  induction m with
  | nil => rfl
  | cons cell rest ih =>
    have h1 := h cell (by simp)
    have : a ≠ cell.1 := by omega
    simp only [Memory.read, this, if_false]
    exact ih (fun x hx => h x (by simp [hx]))

/-- A read after a write of one byte of the memory list. -/
theorem Memory.read_write (c : Config) (m : Memory) (a b : Nat) (v : Byte) (h : Memory.wf c m = true) :
    Memory.read c (Memory.write c m a v) b = if b = a then v else Memory.read c m b := by
  induction m with
  | nil =>
    by_cases hv : v = c.resetByte a <;> by_cases hb : b = a <;> simp_all [Memory.write, Memory.read]
  | cons cell rest ih =>
    obtain ⟨k, w⟩ := cell
    simp only [Memory.wf, Bool.and_eq_true, List.all_eq_true, decide_eq_true_eq] at h
    have ih := ih h.2
    by_cases hk : k < a
    · by_cases hb : b = k
      · subst hb
        have : b ≠ a := by omega
        simp [Memory.write, Memory.read, hk, this]
      · simp [Memory.write, Memory.read, hk, hb, ih]
    · by_cases he : k = a
      · subst he
        by_cases hv : v = c.resetByte k
        · have hrest := Memory.read_below c rest k h.1.2
          by_cases hb : b = k
          · subst hb; simp [Memory.write, hv, hrest]
          · simp [Memory.write, Memory.read, hv, hb]
        · by_cases hb : b = k <;> simp [Memory.write, Memory.read, hv, hb]
      · have hlt : a < k := by omega
        have hsame : Memory.read c ((k, w) :: rest) a = c.resetByte a := by
          have hall : ∀ x ∈ (k, w) :: rest, a < x.1 := by
            intro x hx
            rcases List.mem_cons.mp hx with rfl | hx
            · exact hlt
            · exact Nat.lt_trans hlt (h.1.2 x hx)
          exact Memory.read_below c _ a hall
        by_cases hv : v = c.resetByte a
        · by_cases hb : b = a
          · subst hb; simp [Memory.write, hk, he, hv, hsame]
          · simp [Memory.write, hk, he, hv, hb]
        · by_cases hb : b = a
          · subst hb; simp [Memory.write, Memory.read, hk, he, hv]
          · simp [Memory.write, Memory.read, hk, he, hv, hb]

/-- The addresses that a write leaves listed are old ones and the written one. -/
theorem Memory.mem_write (c : Config) (m : Memory) (a : Nat) (v : Byte) (cell : Host.Cell)
    (h : cell ∈ Memory.write c m a v) : cell ∈ m ∨ cell = (a, v) := by
  induction m with
  | nil =>
    simp only [Memory.write] at h
    split at h <;> simp_all
  | cons top rest ih =>
    obtain ⟨k, w⟩ := top
    simp only [Memory.write] at h
    split at h
    · rcases List.mem_cons.mp h with h | h
      · exact .inl (by simp [h])
      · rcases ih h with h | h
        · exact .inl (by simp [h])
        · exact .inr h
    · split at h <;> split at h
      · exact .inl (by simp [h])
      · rcases List.mem_cons.mp h with h | h
        · exact .inr h
        · exact .inl (by simp [h])
      · exact .inl h
      · rcases List.mem_cons.mp h with h | h
        · exact .inr h
        · exact .inl h

/-- A write below `MEM_SIZE` keeps the canonical form. -/
theorem Memory.write_wf (c : Config) (m : Memory) (a : Nat) (v : Byte) (h : Memory.wf c m = true)
    (ha : a < c.memSize) : Memory.wf c (Memory.write c m a v) = true := by
  induction m with
  | nil =>
    simp only [Memory.write]
    split <;> simp_all [Memory.wf]
  | cons top rest ih =>
    obtain ⟨k, w⟩ := top
    have h0 := h
    simp only [Memory.wf, Bool.and_eq_true, List.all_eq_true, decide_eq_true_eq] at h
    obtain ⟨⟨⟨hk, hw⟩, hall⟩, hrest⟩ := h
    simp only [Memory.write]
    split
    · rename_i hlt
      simp only [Memory.wf, Bool.and_eq_true, List.all_eq_true, decide_eq_true_eq]
      refine ⟨⟨⟨hk, hw⟩, ?_⟩, ih hrest⟩
      intro cell hc
      rcases Memory.mem_write c rest a v cell hc with hc | rfl
      · exact hall cell hc
      · exact hlt
    · split
      · rename_i _ he
        subst he
        split
        · exact hrest
        · rename_i hv
          simp only [Memory.wf, Bool.and_eq_true, List.all_eq_true, decide_eq_true_eq]
          exact ⟨⟨⟨hk, hv⟩, hall⟩, hrest⟩
      · rename_i hlt hne
        split
        · exact h0
        · rename_i hv
          simp only [Memory.wf, Bool.and_eq_true, List.all_eq_true, decide_eq_true_eq] at h0 ⊢
          refine ⟨⟨⟨ha, hv⟩, ?_⟩, h0⟩
          intro cell hc
          rcases List.mem_cons.mp hc with rfl | hc
          · show a < k; omega
          · exact Nat.lt_trans (show a < k by omega) (hall cell hc)

/-- Reset memory has the canonical form. -/
theorem Memory.wf_nil (c : Config) : Memory.wf c [] = true := rfl

/-- Reset memory reads as what reset leaves. -/
@[simp] theorem Memory.read_nil (c : Config) (a : Nat) : Memory.read c [] a = c.resetByte a := rfl

/-- A read after a write of one byte, both addresses reduced (20_memory.md R51). -/
theorem State.memWrite_memRead (s : State) (a b : Nat) (v : Byte) (h : Memory.wf s.cfg s.mem = true) :
    (s.memWrite a v).memRead b
      = if b % s.cfg.memSize = a % s.cfg.memSize then v else s.memRead b := by
  simp only [State.memRead, State.memWrite]
  exact Memory.read_write _ _ _ _ _ h

/-- Writing one byte keeps the canonical form. -/
theorem State.memWrite_wf (s : State) (a : Nat) (v : Byte) (h : Memory.wf s.cfg s.mem = true)
    (hs : 0 < s.cfg.memSize) : Memory.wf (s.memWrite a v).cfg (s.memWrite a v).mem = true :=
  Memory.write_wf _ _ _ _ h (Nat.mod_lt _ hs)

/-- Writing bytes changes the memory alone. -/
theorem State.memWriteAll_eq (s : State) (a : Nat) (bs : List Byte) :
    s.memWriteAll a bs = { s with mem := (s.memWriteAll a bs).mem } := by
  induction bs generalizing s a with
  | nil => rfl
  | cons b bs ih =>
    simp only [State.memWriteAll]
    rw [ih]
    rfl

/-- Writing bytes leaves the configuration. -/
@[simp] theorem State.memWriteAll_cfg (s : State) (a : Nat) (bs : List Byte) :
    (s.memWriteAll a bs).cfg = s.cfg := by rw [State.memWriteAll_eq]

/-- Writing bytes leaves the registers. -/
@[simp] theorem State.memWriteAll_reg (s : State) (a : Nat) (bs : List Byte) (q : Reg) :
    (s.memWriteAll a bs).reg q = s.reg q := by rw [State.memWriteAll_eq]; rfl

/-- Writing bytes keeps the canonical form. -/
theorem State.memWriteAll_wf (s : State) (a : Nat) (bs : List Byte) (h : Memory.wf s.cfg s.mem = true)
    (hs : 0 < s.cfg.memSize) :
    Memory.wf s.cfg (s.memWriteAll a bs).mem = true := by
  induction bs generalizing s a with
  | nil => exact h
  | cons b bs ih => exact ih (s.memWrite a b) (a + 1) (State.memWrite_wf s a b h hs) hs

/-- An address outside the written bytes reads as before. -/
theorem State.memWriteAll_other (s : State) (a b : Nat) (bs : List Byte)
    (h : Memory.wf s.cfg s.mem = true) (hs : 0 < s.cfg.memSize)
    (hb : ∀ j < bs.length, b % s.cfg.memSize ≠ (a + j) % s.cfg.memSize) :
    (s.memWriteAll a bs).memRead b = s.memRead b := by
  induction bs generalizing s a with
  | nil => rfl
  | cons v bs ih =>
    simp only [State.memWriteAll]
    rw [ih (s.memWrite a v) (a + 1) (State.memWrite_wf s a v h hs) hs]
    · rw [State.memWrite_memRead s a b v h, if_neg]
      simpa using hb 0 (by simp)
    · intro j hj
      have := hb (j + 1) (by simpa using hj)
      simpa [Nat.add_assoc, Nat.add_comm 1 j] using this

/-- The `j`-th written byte is read back, when the bytes do not wrap round onto each other. -/
theorem State.memWriteAll_read (s : State) (a j : Nat) (bs : List Byte)
    (h : Memory.wf s.cfg s.mem = true) (hlen : bs.length ≤ s.cfg.memSize) (hj : j < bs.length) :
    (s.memWriteAll a bs).memRead (a + j) = bs[j] := by
  induction bs generalizing s a j with
  | nil => simp at hj
  | cons v bs ih =>
    have hs : 0 < s.cfg.memSize := by simp only [List.length_cons] at hlen; omega
    have hwf := State.memWrite_wf s a v h hs
    simp only [List.length_cons] at hlen hj
    simp only [State.memWriteAll]
    cases j with
    | zero =>
      rw [State.memWriteAll_other (s.memWrite a v) (a + 1) (a + 0) bs hwf hs]
      · simp [State.memWrite_memRead s a a v h]
      · intro j hj' heq
        simp only [State.memWrite_cfg] at heq
        have h1 : (a + 1 + j - a) % s.cfg.memSize = 0 := by
          have := (Nat.ModEq.symm (show a % s.cfg.memSize = (a + 1 + j) % s.cfg.memSize by simpa using heq))
          exact (Nat.modEq_zero_iff_dvd.mpr
            ((Nat.modEq_iff_dvd' (show a ≤ a + 1 + j by omega)).mp this.symm))
        rw [Nat.mod_eq_of_lt (by omega)] at h1
        omega
    | succ j =>
      have := ih (s.memWrite a v) (a + 1) j hwf (by simp; omega) (by omega)
      rw [show a + (j + 1) = a + 1 + j by omega]
      simpa using this

/-- Reading at a reduced address reads the same byte (20_memory.md R51). -/
theorem State.memRead_mod (s : State) (a : Nat) : s.memRead (a % s.cfg.memSize) = s.memRead a := by
  simp [State.memRead]

end Sys2Proof.Machine
end

