-- ==== Sys2Proof/Laws/Registers.lean ====
section
/-! SUPPORT. Reading registers and keys after writes, and what the operations on several registers do. -/

namespace Sys2Proof.Machine

/-- Reading a register after one was written (10_state.md R20: no register is hard-wired). -/
@[simp] theorem State.setReg_reg (s : State) (r q : Reg) (b : Byte) :
    (s.setReg r b).reg q = if q = r then b else s.reg q := by
  simp only [State.reg, State.setReg, Vector.getElem_set, Fin.ext_iff]
  by_cases h : q.val = r.val
  · simp [h]
  · simp [h, Ne.symm h]

/-- Reading a key after one was set. -/
@[simp] theorem State.setKey_key (s : State) (k q : Fin 16) (b : Bool) :
    (s.setKey k b).key q = if q = k then b else s.key q := by
  simp only [State.key, State.setKey, Vector.getElem_set, Fin.ext_iff]
  by_cases h : q.val = k.val
  · simp [h]
  · simp [h, Ne.symm h]

/-- The register files of two states agree when every register reads the same. -/
theorem State.v_ext {s t : State} (h : ∀ r, t.reg r = s.reg r) : t.v = s.v := by
  apply Vector.ext
  intro n hn
  exact h ⟨n, hn⟩

/-- A result and a flag written: the flag register holds the flag, whichever register the result went
to (43_alu.md R170). -/
@[simp] theorem State.writeResultFlag_reg (s : State) (x q : Reg) (result : Byte) (flag : Bool) :
    (s.writeResultFlag x result flag).reg q =
      if q = Reg.VF then flagByte flag else if q = x then result else s.reg q := by
  simp [State.writeResultFlag]

/-- Writing a result and a flag changes the register file alone. -/
theorem State.writeResultFlag_eq (s : State) (x : Reg) (result : Byte) (flag : Bool) :
    s.writeResultFlag x result flag
      = { s with v := (s.writeResultFlag x result flag).v } := rfl

/-- A skip changes `PC` alone. -/
theorem State.skipIf_eq (s : State) (cond : Bool) :
    s.skipIf cond = s.setPc (s.pc + if cond then 4 else 2) := rfl

/-- Every index is in the list of all indices. -/
theorem mem_indices16 (k : Fin 16) : k ∈ indices16 := by
  revert k; decide

/-- The registers moved by `FX55` and `FX65` are those up to `x`. -/
theorem mem_regsUpTo (x r : Reg) : r ∈ regsUpTo x ↔ r ≤ x := by
  simp [regsUpTo, mem_indices16]

/-- The registers `V0..Vx` in their order, by their numbers. -/
theorem regsUpTo_vals (x : Reg) : (regsUpTo x).map Fin.val = List.range (x.val + 1) := by
  revert x; decide

/-- There are `x + 1` of them. -/
theorem regsUpTo_length (x : Reg) : (regsUpTo x).length = x.val + 1 := by
  simpa using congrArg List.length (regsUpTo_vals x)

/-- The `j`-th of them is `Vj`. -/
theorem regsUpTo_getElem (x : Reg) (j : Nat) (h : j < (regsUpTo x).length) :
    ((regsUpTo x)[j]).val = j := by
  have := congrArg (fun l => l[j]?) (regsUpTo_vals x)
  have hj : j < x.val + 1 := by simpa [regsUpTo_length] using h
  simpa [h, hj] using this

/-- Registers loaded from memory: the loaded ones hold the byte at their offset, the others are kept. -/
theorem State.loadRegsFrom_reg (s : State) (a : Nat) (rs : List Reg) (q : Reg) :
    (s.loadRegsFrom a rs).reg q = if q ∈ rs then s.memRead (a + q.val) else s.reg q := by
  induction rs generalizing s with
  | nil => simp [State.loadRegsFrom]
  | cons r rs ih =>
    simp only [State.loadRegsFrom, ih, State.setReg_memRead, State.setReg_reg, List.mem_cons]
    by_cases h : q ∈ rs <;> by_cases hr : q = r <;> simp [h, hr]

/-- Loading registers changes the register file alone. -/
theorem State.loadRegsFrom_eq (s : State) (a : Nat) (rs : List Reg) :
    s.loadRegsFrom a rs = { s with v := (s.loadRegsFrom a rs).v } := by
  induction rs generalizing s with
  | nil => rfl
  | cons r rs ih =>
    simp only [State.loadRegsFrom]
    rw [ih]
    rfl

/-- The register file after a load. -/
theorem State.loadRegsFrom_other (s : State) (a : Nat) (rs : List Reg) :
    (s.loadRegsFrom a rs).mem = s.mem ∧ (s.loadRegsFrom a rs).cfg = s.cfg
      ∧ (s.loadRegsFrom a rs).i = s.i ∧ (s.loadRegsFrom a rs).pc = s.pc := by
  rw [State.loadRegsFrom_eq]
  exact ⟨rfl, rfl, rfl, rfl⟩

/-- The side effect of `COMPAT_MODE` changes `I` alone. -/
theorem State.compatAdvanceI_eq (s : State) (x : Reg) :
    s.compatAdvanceI x
      = { s with i := if s.cfg.compatMode then s.i + BitVec.ofNat 16 (x.val + 1) else s.i } := by
  unfold State.compatAdvanceI
  split <;> rfl

end Sys2Proof.Machine
end

