-- ==== Sys2Proof/Laws/Operands.lean ====
section
/-! SUPPORT. What the operand forms answer: one lemma each, to be cited instead of unfolding them. -/

namespace Sys2Proof.Machine

/-- A register value up to 15 is a key index as it stands (45_keyboard.md R230). -/
theorem keyIndex_small (p : KeyIndexPolicy) (v : Byte) (h : v.toNat < 16) :
    keyIndex p v = .ok ⟨v.toNat, h⟩ := by simp [keyIndex, h]

/-- A register value above 15 faults, or its low nibble is the index (45_keyboard.md R230). -/
theorem keyIndex_large (p : KeyIndexPolicy) (v : Byte) (h : ¬ v.toNat < 16) :
    keyIndex p v = match p with
      | .fault => .error .keyIndex
      | .lowNibble => .ok (Fin.ofNat 16 v.toNat) := by
  cases p <;> simp [keyIndex, h]

/-- The only fault of a key index (45_keyboard.md R230). -/
theorem keyIndex_error (p : KeyIndexPolicy) (v : Byte) (f : Fault) (h : keyIndex p v = .error f) :
    f = .keyIndex ∧ p = .fault ∧ 15 < v.toNat := by
  by_cases hv : v.toNat < 16
  · simp [keyIndex_small p v hv] at h
  · rw [keyIndex_large p v hv] at h
    cases p with
    | fault => exact ⟨by simpa using h.symm, rfl, by omega⟩
    | lowNibble => cases h

/-- The only fault of a font address (44_index_memory.md R202). -/
theorem charAddress_error (p : FontIndexPolicy) (v : Byte) (f : Fault) (h : charAddress p v = .error f) :
    f = .fontIndex ∧ p = .fault ∧ 15 < v.toNat := by
  unfold charAddress at h
  split at h
  · cases h
  · cases p with
    | fault => exact ⟨by simpa using h.symm, rfl, by omega⟩
    | lowNibble => cases h
    | multiply => cases h

/-- A key is in the list of pressed keys when it is down. -/
theorem State.mem_pressedKeys (s : State) (k : Fin 16) : k ∈ s.pressedKeys ↔ s.key k = true := by
  simp [State.pressedKeys, mem_indices16]

/-- A free choice picks one of the pressed keys (45_keyboard.md R234). -/
theorem pickKey_mem (choice : Nat) (first : Fin 16) (rest : List (Fin 16)) :
    pickKey choice first rest ∈ first :: rest := by
  have h : choice % (first :: rest).length < (first :: rest).length := Nat.mod_lt _ (by simp)
  unfold pickKey
  rw [List.getD_eq_getElem _ _ h]
  exact List.getElem_mem h

/-- With no key down there is no first pressed key (45_keyboard.md R234). -/
theorem State.firstPressed_none (s : State) (h : ∀ k, s.key k = false) : s.firstPressed = none := by
  have : s.pressedKeys = [] := by simp [State.pressedKeys, h]
  simp [State.firstPressed, this]

/-- With a key down the first pressed key is one that is down, the lowest under `LOWEST_INDEX`, and nothing
but the count of draws changes (45_keyboard.md R234). -/
theorem State.firstPressed_some (s : State) (h : ∃ k, s.key k = true) :
    ∃ k t, s.firstPressed = some (k, t) ∧ s.key k = true ∧ (t = s ∨ t = s.countDraw)
      ∧ (s.cfg.keySelect = .lowestIndex → t = s ∧ ∀ j, j < k → s.key j = false) := by
  have hsorted : indices16.Pairwise (· < ·) := by decide
  cases hp : s.pressedKeys with
  | nil =>
    obtain ⟨k, hk⟩ := h
    have := (s.mem_pressedKeys k).mpr hk
    simp [hp] at this
  | cons k ks =>
    have hmem : ∀ q, q ∈ k :: ks ↔ s.key q = true := fun q => by rw [← hp]; exact s.mem_pressedKeys q
    cases hsel : s.cfg.keySelect with
    | lowestIndex =>
      refine ⟨k, s, by simp [State.firstPressed, hp, hsel], (hmem k).mp (by simp), .inl rfl, fun _ => ⟨rfl, ?_⟩⟩
      intro j hj
      have hpw : (k :: ks).Pairwise (· < ·) := by rw [← hp]; exact hsorted.filter _
      by_contra hne
      have hjm := (hmem j).mpr (by simpa using hne)
      rcases List.mem_cons.mp hjm with rfl | hjm
      · exact absurd hj (lt_irrefl _)
      · exact absurd hj (lt_asymm ((List.pairwise_cons.mp hpw).1 j hjm))
    | anyPressed =>
      exact ⟨pickKey (Config.freeChoice s.draws) k ks, s.countDraw, by simp [State.firstPressed, hp, hsel],
        (hmem _).mp (pickKey_mem _ _ _), .inr rfl, fun h => by cases h⟩

/-- A `LOAD` with an origin uses it (70_reset_and_hazards.md R312). -/
@[simp] theorem originOf_some (c : Config) (origin : Nat) : originOf c (some origin) = origin := rfl

/-- A `LOAD` without one uses `LOAD_ORIGIN` (70_reset_and_hazards.md R312). -/
@[simp] theorem originOf_none (c : Config) : originOf c none = c.loadOrigin := rfl

/-- `FX33` stores three bytes (44_index_memory.md R203). -/
@[simp] theorem bcdBytes_length (m : BcdMode) (v : Byte) : (bcdBytes m v).length = 3 := by
  cases m <;> rfl

end Sys2Proof.Machine
end

