-- ==== Sys2Proof/Laws/PerInstr.lean ====
section
/-! SUPPORT. Statements per instruction. `TableRow`: the instruction's word, as the encoder gives it, is
accepted by a row of the opcode table that builds the same instruction from it (30_encoding.md R80). -/

namespace Sys2Proof.Laws.TableRow

/-- Some row of the opcode table accepts the instruction's word and builds the instruction from it. -/
def Statement (i : Instr) : Prop :=
  ∃ row ∈ rows, row.format.accepts (encode i) = true ∧ row.build (encode i) = i

/-! One lemma per format (30_encoding.md R76). -/

theorem of_fixed (j : Nat) (i : Instr) (e f : Nibble) (hrow : rows[j]? = some ⟨.fixed e f, fun _ => i⟩)
    (hword : encode i = wordOfNibbles 0 0 e f) : Statement i :=
  ⟨_, List.mem_of_getElem? hrow, by simp [hword, Format.accepts, Format.fixed, FormatChar.accepts], rfl⟩

theorem of_nnn (j : Nat) (d : Nibble) (make : Addr12 → Instr) (a : Addr12)
    (hrow : rows[j]? = some ⟨.nnn d, fun op => make (fieldNNN op)⟩)
    (hword : encode (make a) = wordNNN d a) : Statement (make a) :=
  ⟨_, List.mem_of_getElem? hrow, by simp [hword, Format.accepts, Format.nnn, FormatChar.accepts],
    by simp [hword]⟩

theorem of_xnn (j : Nat) (d : Nibble) (make : Reg → Byte → Instr) (x : Reg) (k : Byte)
    (hrow : rows[j]? = some ⟨.xnn d, fun op => make (fieldX op) (fieldNN op)⟩)
    (hword : encode (make x k) = wordXNN d x k) : Statement (make x k) :=
  ⟨_, List.mem_of_getElem? hrow, by simp [hword, Format.accepts, Format.xnn, FormatChar.accepts],
    by simp [hword, fieldX_eq]⟩

theorem of_xy (j : Nat) (d e : Nibble) (make : Reg → Reg → Instr) (x y : Reg)
    (hrow : rows[j]? = some ⟨.xy d e, fun op => make (fieldX op) (fieldY op)⟩)
    (hword : encode (make x y) = wordXYN d x y e) : Statement (make x y) :=
  ⟨_, List.mem_of_getElem? hrow,
    by simp [hword, wordXYN_eq, Format.accepts, Format.xy, FormatChar.accepts],
    by simp [hword, wordXYN_eq, fieldX_eq, fieldY_eq]⟩

theorem of_x (j : Nat) (d e f : Nibble) (k : Byte) (make : Reg → Instr) (x : Reg)
    (hrow : rows[j]? = some ⟨.x d e f, fun op => make (fieldX op)⟩)
    (hword : encode (make x) = wordXNN d x k) (he : k.extractLsb' 4 4 = e)
    (hf : k.extractLsb' 0 4 = f) : Statement (make x) :=
  ⟨_, List.mem_of_getElem? hrow,
    by simp [hword, he, hf, Format.accepts, Format.x, FormatChar.accepts],
    by simp [hword, fieldX_eq]⟩

/-! One lemma per instruction. -/

section
variable (x y : Reg) (k : Byte) (n : Nibble) (a : Addr12)

theorem cls : Statement (.cls) := of_fixed 0 .cls 0xE 0x0 rfl rfl

theorem ret : Statement (.ret) := of_fixed 1 .ret 0xE 0xE rfl rfl

theorem jp : Statement (.jp a) := of_nnn 2 0x1 .jp a rfl rfl

theorem call : Statement (.call a) := of_nnn 3 0x2 .call a rfl rfl

theorem seImm : Statement (.seImm x k) := of_xnn 4 0x3 .seImm x k rfl rfl

theorem sneImm : Statement (.sneImm x k) := of_xnn 5 0x4 .sneImm x k rfl rfl

theorem seReg : Statement (.seReg x y) := of_xy 6 0x5 0x0 .seReg x y rfl rfl

theorem ldImm : Statement (.ldImm x k) := of_xnn 7 0x6 .ldImm x k rfl rfl

theorem addImm : Statement (.addImm x k) := of_xnn 8 0x7 .addImm x k rfl rfl

theorem ldReg : Statement (.ldReg x y) := of_xy 9 0x8 0x0 .ldReg x y rfl rfl

theorem orReg : Statement (.orReg x y) := of_xy 10 0x8 0x1 .orReg x y rfl rfl

theorem andReg : Statement (.andReg x y) := of_xy 11 0x8 0x2 .andReg x y rfl rfl

theorem xorReg : Statement (.xorReg x y) := of_xy 12 0x8 0x3 .xorReg x y rfl rfl

theorem addReg : Statement (.addReg x y) := of_xy 13 0x8 0x4 .addReg x y rfl rfl

theorem subReg : Statement (.subReg x y) := of_xy 14 0x8 0x5 .subReg x y rfl rfl

theorem shr : Statement (.shr x y) := of_xy 15 0x8 0x6 .shr x y rfl rfl

theorem subn : Statement (.subn x y) := of_xy 16 0x8 0x7 .subn x y rfl rfl

theorem shl : Statement (.shl x y) := of_xy 17 0x8 0xE .shl x y rfl rfl

theorem sneReg : Statement (.sneReg x y) := of_xy 18 0x9 0x0 .sneReg x y rfl rfl

theorem ldI : Statement (.ldI a) := of_nnn 19 0xA .ldI a rfl rfl

theorem jpV0 : Statement (.jpV0 a) := of_nnn 20 0xB .jpV0 a rfl rfl

theorem rnd : Statement (.rnd x k) := of_xnn 21 0xC .rnd x k rfl rfl

theorem drw : Statement (.drw x y n) :=
  ⟨_, List.mem_of_getElem? (i := 22) rfl,
    by simp [encode, wordXYN_eq, Format.accepts, FormatChar.accepts],
    by simp [encode, wordXYN_eq, fieldX_eq, fieldY_eq, fieldN_eq]⟩

theorem skp : Statement (.skp x) := of_x 23 0xE 0x9 0xE (0x9E) .skp x rfl rfl rfl rfl

theorem sknp : Statement (.sknp x) := of_x 24 0xE 0xA 0x1 (0xA1) .sknp x rfl rfl rfl rfl

theorem ldVxDt : Statement (.ldVxDt x) := of_x 25 0xF 0x0 0x7 (0x07) .ldVxDt x rfl rfl rfl rfl

theorem ldVxK : Statement (.ldVxK x) := of_x 26 0xF 0x0 0xA (0x0A) .ldVxK x rfl rfl rfl rfl

theorem ldDtVx : Statement (.ldDtVx x) := of_x 27 0xF 0x1 0x5 (0x15) .ldDtVx x rfl rfl rfl rfl

theorem ldStVx : Statement (.ldStVx x) := of_x 28 0xF 0x1 0x8 (0x18) .ldStVx x rfl rfl rfl rfl

theorem addI : Statement (.addI x) := of_x 29 0xF 0x1 0xE (0x1E) .addI x rfl rfl rfl rfl

theorem ldF : Statement (.ldF x) := of_x 30 0xF 0x2 0x9 (0x29) .ldF x rfl rfl rfl rfl

theorem ldB : Statement (.ldB x) := of_x 31 0xF 0x3 0x3 (0x33) .ldB x rfl rfl rfl rfl

theorem storeRegs : Statement (.storeRegs x) := of_x 32 0xF 0x5 0x5 (0x55) .storeRegs x rfl rfl rfl rfl

theorem loadRegs : Statement (.loadRegs x) := of_x 33 0xF 0x6 0x5 (0x65) .loadRegs x rfl rfl rfl rfl

theorem scd : Statement (.scd n) :=
  ⟨_, List.mem_of_getElem? (i := 34) rfl,
    by simp [encode, Format.accepts, FormatChar.accepts], by simp [encode, fieldN_eq]⟩

theorem scr : Statement (.scr) := of_fixed 35 .scr 0xF 0xB rfl rfl

theorem scl : Statement (.scl) := of_fixed 36 .scl 0xF 0xC rfl rfl

theorem low : Statement (.low) := of_fixed 37 .low 0xF 0xE rfl rfl

theorem high : Statement (.high) := of_fixed 38 .high 0xF 0xF rfl rfl

end

end Sys2Proof.Laws.TableRow
end

