-- ==== Sys2Proof/Laws/Screen.lean ====
section
/-! SUPPORT. What the screen's operations do to one pixel, and when a draw collides (41_display.md R120 to
R124). -/

namespace Sys2Proof.Machine

/-- Coordinates are reduced modulo 32 and 64 (41_display.md R120). -/
theorem Screen.pixel_mod (g : Screen) (r c : Nat) : g.pixel (r % 32) (c % 64) = g.pixel r c := by
  simp [Screen.pixel]

/-- Two coordinates that are equal modulo the screen's size name one pixel. -/
theorem Screen.pixel_congr (g : Screen) {r r' c c' : Nat} (hr : r % 32 = r' % 32)
    (hc : c % 64 = c' % 64) : g.pixel r c = g.pixel r' c' := by
  rw [← Screen.pixel_mod g r c, ← Screen.pixel_mod g r' c', hr, hc]

/-- A pixel of the blank screen. -/
@[simp] theorem Screen.pixel_blank (r c : Nat) : Screen.blank.pixel r c = false := by
  simp [Screen.blank, Screen.pixel]

/-- Reading a pixel after one was replaced. -/
theorem Screen.pixel_put (g : Screen) (r c r' c' : Nat) (b : Bool) :
    (g.put r c b).pixel r' c'
      = if r' % 32 = r % 32 ∧ c' % 64 = c % 64 then b else g.pixel r' c' := by
  simp only [Screen.put, Screen.pixel, Vector.getElem_set]
  by_cases hr : r' % 32 = r % 32
  · by_cases hc : c' % 64 = c % 64
    · simp [hr, hc]
    · simp [hr, hc, Ne.symm hc]
  · simp [hr, Ne.symm hr]

/-- Two screens with the same pixels are equal. -/
theorem Screen.ext_pixel {g h : Screen} (e : ∀ r < 32, ∀ c < 64, g.pixel r c = h.pixel r c) :
    g = h := by
  apply Vector.ext
  intro r hr
  apply Vector.ext
  intro c hc
  have := e r hr c hc
  simpa [Screen.pixel, Nat.mod_eq_of_lt hr, Nat.mod_eq_of_lt hc] using this

/-- `SetPixel` flips its pixel by the bit and leaves the others (41_display.md R120). -/
theorem setPixel_pixel (g : Screen) (r c r' c' : Nat) (b : Bool) :
    (setPixel g r c b).1.pixel r' c'
      = Bool.xor (g.pixel r' c') (decide (r' % 32 = r % 32) && (decide (c' % 64 = c % 64) && b)) := by
  simp only [setPixel, Screen.pixel_put]
  by_cases hr : r' % 32 = r % 32
  · by_cases hc : c' % 64 = c % 64
    · simp [hr, hc, Screen.pixel_congr g hr hc]
    · simp [hc]
  · simp [hr]

/-- `SetPixel` collides when the pixel was lit and the bit is 1 (41_display.md R120). -/
theorem setPixel_collision (g : Screen) (r c : Nat) (b : Bool) :
    (setPixel g r c b).2 = (g.pixel r c && b) := by
  simp only [setPixel]
  cases g.pixel r c <;> cases b <;> rfl

/-- The bit of a sprite row drawn from column `c` on that falls on column `c'`; false where the row does not
reach. -/
def rowBit (row : Byte) (c c' : Nat) : Bool :=
  columns8.any (fun j => decide (c' % 64 = (c + j) % 64) && row.getLsbD (7 - j))

/-- Drawing some of a row's columns, each at most once. -/
theorem drawColumns (row : Byte) (r c : Nat) (js : List Nat) (hd : js.Nodup) (h8 : ∀ j ∈ js, j < 8)
    (acc : Screen × Bool) :
    let out := js.foldl
      (fun acc j =>
        let p := setPixel acc.1 r (c + j) (row.getLsbD (7 - j))
        (p.1, acc.2 || p.2)) acc
    (∀ r' c', out.1.pixel r' c'
        = Bool.xor (acc.1.pixel r' c') (decide (r' % 32 = r % 32)
            && js.any (fun j => decide (c' % 64 = (c + j) % 64) && row.getLsbD (7 - j))))
      ∧ out.2 = (acc.2 || js.any (fun j => acc.1.pixel r (c + j) && row.getLsbD (7 - j))) := by
  induction js generalizing acc with
  | nil => simp
  | cons j js ih =>
    obtain ⟨hj, hd⟩ := List.nodup_cons.mp hd
    have hj8 := h8 j (by simp)
    have h8' : ∀ i ∈ js, i < 8 := fun i hi => h8 i (by simp [hi])
    have hne : ∀ i ∈ js, (c + i) % 64 ≠ (c + j) % 64 := by
      intro i hi heq
      have hi8 := h8' i hi
      have : i = j := by omega
      exact hj (this ▸ hi)
    obtain ⟨h1, h2⟩ := ih hd h8'
      ((setPixel acc.1 r (c + j) (row.getLsbD (7 - j))).1,
        acc.2 || (setPixel acc.1 r (c + j) (row.getLsbD (7 - j))).2)
    refine ⟨fun r' c' => ?_, ?_⟩
    · refine (h1 r' c').trans ?_
      simp only [setPixel_pixel, List.any_cons]
      by_cases hr : r' % 32 = r % 32
      · by_cases hc : c' % 64 = (c + j) % 64
        · have hany : js.any (fun i => decide (c' % 64 = (c + i) % 64) && row.getLsbD (7 - i)) = false := by
            simp only [List.any_eq_false]
            intro i hi
            have := hne i hi
            simp [hc, Ne.symm this]
          rw [hany]
          simp [hr, hc]
        · simp [hc]
      · simp [hr]
    · refine h2.trans ?_
      have hsame : js.any (fun i => (setPixel acc.1 r (c + j) (row.getLsbD (7 - j))).1.pixel r (c + i)
            && row.getLsbD (7 - i))
          = js.any (fun i => acc.1.pixel r (c + i) && row.getLsbD (7 - i)) := by
        rw [Bool.eq_iff_iff]
        simp only [List.any_eq_true, setPixel_pixel]
        constructor <;> rintro ⟨i, hi, h⟩ <;> exact ⟨i, hi, by simpa [hne i hi] using h⟩
      simp only [hsame, setPixel_collision, List.any_cons, Bool.or_assoc]

/-- What drawing one sprite row does to a pixel. -/
theorem drawRow_pixel (g : Screen) (r c : Nat) (row : Byte) (r' c' : Nat) :
    (drawRow g r c row).1.pixel r' c'
      = Bool.xor (g.pixel r' c') (decide (r' % 32 = r % 32) && rowBit row c c') :=
  (drawColumns row r c columns8 (by decide) (by decide) (g, false)).1 r' c'

/-- When drawing one sprite row collides: a lit pixel of its row lies under a bit of it. -/
theorem drawRow_collision (g : Screen) (r c : Nat) (row : Byte) :
    (drawRow g r c row).2 = true ↔ ∃ c' < 64, g.pixel r c' = true ∧ rowBit row c c' = true := by
  have h := (drawColumns row r c columns8 (by decide) (by decide) (g, false)).2
  change (drawRow g r c row).2 = _ at h
  rw [h]
  simp only [Bool.false_or, List.any_eq_true, Bool.and_eq_true, rowBit, decide_eq_true_eq]
  constructor
  · rintro ⟨j, hj, hp, hb⟩
    refine ⟨(c + j) % 64, Nat.mod_lt _ (by decide), ?_, j, hj, by simp, hb⟩
    rw [← hp]
    exact Screen.pixel_congr g rfl (by simp)
  · rintro ⟨c', _, hp, j, hj, hc, hb⟩
    exact ⟨j, hj, by rw [← hp]; exact Screen.pixel_congr g rfl hc.symm, hb⟩

/-- The bit of a sprite, its rows drawn from row `r` on and its columns from column `c` on, that falls on a
pixel; false where the sprite does not reach. -/
def bitOfRows (r c : Nat) : List Byte → Nat → Nat → Bool
  | [], _, _ => false
  | row :: rest, r', c' =>
    (decide (r' % 32 = r % 32) && rowBit row c c') || bitOfRows (r + 1) c rest r' c'

/-- A sprite of fewer than 32 rows reaches a row of the screen with one of its rows at most. -/
theorem bitOfRows_above (r c : Nat) (rows : List Byte) (r' c' : Nat) (k : Nat)
    (hk : k + rows.length ≤ 32) (hk0 : 0 < k) (hr : (r' + k) % 32 = r % 32) :
    bitOfRows r c rows r' c' = false := by
  induction rows generalizing r k with
  | nil => rfl
  | cons row rest ih =>
    simp only [List.length_cons] at hk
    simp only [bitOfRows, Bool.or_eq_false_iff]
    refine ⟨?_, ih (r + 1) (k + 1) (by omega) (by omega) (by omega)⟩
    have : r' % 32 ≠ r % 32 := by omega
    simp [this]

/-- What drawing a sprite of at most 31 rows does to a pixel (41_display.md R124). -/
theorem drawSprite_pixel (g : Screen) (r c : Nat) (rows : List Byte) (h : rows.length < 32)
    (r' c' : Nat) :
    (drawSprite g r c rows).1.pixel r' c' = Bool.xor (g.pixel r' c') (bitOfRows r c rows r' c') := by
  induction rows generalizing g r with
  | nil => simp [drawSprite, bitOfRows]
  | cons row rest ih =>
    simp only [List.length_cons] at h
    simp only [drawSprite, bitOfRows]
    rw [ih _ _ (by omega), drawRow_pixel]
    by_cases hr : r' % 32 = r % 32
    · have : bitOfRows (r + 1) c rest r' c' = false :=
        bitOfRows_above (r + 1) c rest r' c' 1 (by omega) (by omega) (by omega)
      simp [this]
    · simp [hr]

/-- When drawing a sprite collides: some lit pixel lies under a bit of it (41_display.md R124). -/
theorem drawSprite_collision (g : Screen) (r c : Nat) (rows : List Byte) (h : rows.length < 32) :
    (drawSprite g r c rows).2 = true
      ↔ ∃ r' < 32, ∃ c' < 64, g.pixel r' c' = true ∧ bitOfRows r c rows r' c' = true := by
  induction rows generalizing g r with
  | nil => simp [drawSprite, bitOfRows]
  | cons row rest ih =>
    simp only [List.length_cons] at h
    simp only [drawSprite, bitOfRows, Bool.or_eq_true, drawRow_collision, ih _ _ (show rest.length < 32 by omega)]
    constructor
    · rintro (⟨c', hc', hp, hb⟩ | ⟨r', hr', c', hc', hp, hb⟩)
      · refine ⟨r % 32, Nat.mod_lt _ (by decide), c', hc', ?_, .inl ?_⟩
        · rw [← hp]; exact Screen.pixel_congr g (by simp) rfl
        · simp [hb]
      · refine ⟨r', hr', c', hc', ?_, .inr hb⟩
        by_cases hr : r' % 32 = r % 32
        · have : bitOfRows (r + 1) c rest r' c' = false :=
            bitOfRows_above (r + 1) c rest r' c' 1 (by omega) (by omega) (by omega)
          simp [this] at hb
        · rw [drawRow_pixel] at hp
          simpa [hr] using hp
    · rintro ⟨r', hr', c', hc', hp, hb | hb⟩
      · simp only [Bool.and_eq_true, decide_eq_true_eq] at hb
        exact .inl ⟨c', hc', by rw [← hp]; exact Screen.pixel_congr g hb.1.symm rfl, hb.2⟩
      · refine .inr ⟨r', hr', c', hc', ?_, hb⟩
        by_cases hr : r' % 32 = r % 32
        · have : bitOfRows (r + 1) c rest r' c' = false :=
            bitOfRows_above (r + 1) c rest r' c' 1 (by omega) (by omega) (by omega)
          simp [this] at hb
        · rw [drawRow_pixel]
          simpa [hr] using hp

/-- A row's bit on a column: the column lies less than 8 to the right of the row's first one. -/
theorem rowBit_iff (row : Byte) (c c' : Nat) :
    rowBit row c c' = true
      ↔ (c' + 64 - c % 64) % 64 < 8 ∧ row.getLsbD (7 - (c' + 64 - c % 64) % 64) = true := by
  have hm : ∀ j, j ∈ columns8 ↔ j < 8 := by intro j; simp [columns8]; omega
  simp only [rowBit, List.any_eq_true, Bool.and_eq_true, decide_eq_true_eq, hm]
  constructor
  · rintro ⟨j, hj, hc, hb⟩
    have : (c' + 64 - c % 64) % 64 = j := by omega
    rw [this]
    exact ⟨hj, hb⟩
  · rintro ⟨h, hb⟩
    exact ⟨_, h, by omega, hb⟩

/-- A sprite's bit on a pixel: the bit of the row that lies as far down as the pixel does, and of the column
that lies as far to the right. -/
theorem bitOfRows_iff (rows : List Byte) (r c r' c' : Nat) (hl : rows.length < 32) :
    bitOfRows r c rows r' c' = true
      ↔ ∃ h : (r' + 32 - r % 32) % 32 < rows.length, (c' + 64 - c % 64) % 64 < 8
        ∧ rows[(r' + 32 - r % 32) % 32].getLsbD (7 - (c' + 64 - c % 64) % 64) = true := by
  induction rows generalizing r with
  | nil => simp [bitOfRows]
  | cons row rest ih =>
    have hl' : rest.length < 31 := by simp at hl; omega
    simp only [bitOfRows, Bool.or_eq_true, Bool.and_eq_true, decide_eq_true_eq, rowBit_iff]
    rw [ih (r + 1) (by omega)]
    by_cases h0 : r' % 32 = r % 32
    · have e : (r' + 32 - r % 32) % 32 = 0 := by omega
      have e2 : (r' + 32 - (r + 1) % 32) % 32 = 31 := by omega
      constructor
      · rintro (⟨_, h⟩ | ⟨h, _⟩)
        · exact ⟨by simp [e], by simpa [e] using h⟩
        · omega
      · rintro ⟨_, h⟩
        exact .inl ⟨h0, by simpa [e] using h⟩
    · have e2 : (r' + 32 - r % 32) % 32 = (r' + 32 - (r + 1) % 32) % 32 + 1 := by omega
      constructor
      · rintro (⟨h, _⟩ | ⟨h, h2⟩)
        · exact absurd h h0
        · exact ⟨by simp; omega, by simpa [e2] using h2⟩
      · rintro ⟨h, h2⟩
        exact .inr ⟨by simp at h; omega, by simpa [e2] using h2⟩

/-- The sprite's rows are as many as the instruction says. -/
@[simp] theorem State.spriteRows_length (s : State) (k : Nat) : (s.spriteRows k).length = k := by
  simp [State.spriteRows]

end Sys2Proof.Machine
end

