-- ==== Sys2Proof/Laws/Step.lean ====
section
/-! SUPPORT. What a step can do, said once: when an instruction runs, and which of the four cases of
40_execution_cycle.md R101 a step is. -/

namespace Sys2Proof.Machine

/-- An instruction runs exactly when no latch is set, a whole word lies at `PC`, and it decodes
(40_execution_cycle.md R101). The sentinel does not decode. -/
theorem fetch_runs_iff (s : State) (i : Instr) :
    fetch s = .runs i ↔ s.fault = none ∧ s.exit = none ∧ s.pc.toNat + 1 < s.cfg.memSize
      ∧ decode s.fetchWord = .ok i := by
  have h0 : decode 0 = .error .unknownInstruction := by decide
  unfold fetch
  constructor
  · intro h
    repeat' split at h
    all_goals cases h
    rename_i h1 h2 h3 h4 h5 j hj
    refine ⟨by simpa using h1, by simpa using h2, by omega, hj⟩
  · rintro ⟨h1, h2, h3, h4⟩
    have hne : s.fetchWord ≠ 0 := fun h => by rw [h, h0] at h4; cases h4
    rw [if_neg (by simp [h1]), if_neg (by simp [h2]), if_neg (by omega), if_neg (by omega), if_neg hne, h4]

/-- A step changes nothing exactly when a latch is set. -/
theorem fetch_halted_iff (s : State) : fetch s = .halted ↔ s.fault.isSome = true ∨ s.exit.isSome = true := by
  unfold fetch
  constructor
  · intro h
    repeat' split at h
    all_goals cases h
    · left; assumption
    · right; assumption
  · rintro (h | h)
    · rw [if_pos h]
    · by_cases h1 : s.fault.isSome = true
      · rw [if_pos h1]
      · rw [if_neg h1, if_pos h]

/-- A step exits exactly when no latch is set and `PC` is out of bounds or the sentinel lies there. -/
theorem fetch_exits_iff (s : State) : fetch s = .exits ↔ s.fault = none ∧ s.exit = none
    ∧ (s.cfg.memSize ≤ s.pc.toNat ∨ (s.pc.toNat + 1 < s.cfg.memSize ∧ s.fetchWord = 0)) := by
  unfold fetch
  constructor
  · intro h
    repeat' split at h
    all_goals cases h
    · rename_i h1 h2 h3
      exact ⟨by simpa using h1, by simpa using h2, .inl h3⟩
    · rename_i h1 h2 h3 h4 h5
      exact ⟨by simpa using h1, by simpa using h2, .inr ⟨by omega, h5⟩⟩
  · rintro ⟨h1, h2, h3 | ⟨h3, h4⟩⟩
    · rw [if_neg (by simp [h1]), if_neg (by simp [h2]), if_pos h3]
    · rw [if_neg (by simp [h1]), if_neg (by simp [h2]), if_neg (by omega), if_neg (by omega), if_pos h4]

/-- When a step faults before `Execute`, and with what. -/
theorem fetch_faults (s : State) (k : Fault) (op : Word) (h : fetch s = .faults k op) :
    s.fault = none ∧ s.exit = none ∧
      ((k = .fetchStraddle ∧ op = 0 ∧ s.pc.toNat + 1 = s.cfg.memSize)
        ∨ (s.pc.toNat + 1 < s.cfg.memSize ∧ op = s.fetchWord ∧ s.fetchWord ≠ 0
            ∧ ∃ e, decode s.fetchWord = .error e ∧ k = decodeFault e)) := by
  unfold fetch at h
  repeat' split at h
  all_goals cases h
  · rename_i h1 h2 h3 h4
    exact ⟨by simpa using h1, by simpa using h2, .inl ⟨rfl, rfl, h4⟩⟩
  · rename_i h1 h2 h3 h4 h5 _ e he
    exact ⟨by simpa using h1, by simpa using h2, .inr ⟨by omega, rfl, h5, e, he, rfl⟩⟩

/-- What a step can do: nothing, exit, fault before `Execute`, or run an instruction and retire it. -/
theorem step_cases (s t : State) (h : step s = .next t) :
    (fetch s = .halted ∧ t = s)
      ∨ (fetch s = .exits ∧ t = s.setExit 0)
      ∨ (∃ k op, fetch s = .faults k op ∧ t = s.raise k op)
      ∨ (∃ i u, fetch s = .runs i ∧ exec i s = .next u ∧ t = retire i u) := by
  unfold step at h
  split at h
  · cases h; exact .inl ⟨‹_›, rfl⟩
  · cases h; exact .inr (.inl ⟨‹_›, rfl⟩)
  · cases h; exact .inr (.inr (.inl ⟨_, _, ‹_›, rfl⟩))
  · split at h
    · cases h; exact .inr (.inr (.inr ⟨_, _, ‹_›, ‹_›, rfl⟩))
    · cases h
    · cases h

/-- A step that runs an instruction answers what `Execute` leaves, retired. -/
theorem step_runs (s u : State) (i : Instr) (h : fetch s = .runs i) (he : exec i s = .next u) :
    step s = .next (retire i u) := by
  simp [step, h, he]

/-- After a fault nothing is advanced (40_execution_cycle.md R106). -/
theorem retire_faulted (i : Instr) (t : State) (h : t.fault.isSome = true) : retire i t = t := by
  simp [retire, h]

/-- A jump-style instruction is not advanced (40_execution_cycle.md R104). -/
theorem retire_jump (i : Instr) (t : State) (h : isJump i = true) : retire i t = t := by
  simp [retire, h]

/-- A blocked machine is not advanced (40_execution_cycle.md R105). -/
theorem retire_blocked (i : Instr) (t : State) (h : t.block = true) : retire i t = t := by
  simp [retire, h]

/-- Every other instruction is advanced by 2 (40_execution_cycle.md R104). -/
theorem retire_advance (i : Instr) (t : State) (hf : t.fault = none) (hj : isJump i = false)
    (hb : t.block = false) : retire i t = t.setPc (t.pc + 2) := by
  simp [retire, hf, hj, hb]

/-- Retiring changes `PC` alone. -/
theorem retire_cases (i : Instr) (t : State) : retire i t = t ∨ retire i t = t.setPc (t.pc + 2) := by
  unfold retire
  split
  · exact .inl rfl
  · split
    · exact .inl rfl
    · exact .inr rfl

end Sys2Proof.Machine
end

