-- ==== Sys2Proof/Machine/Assembler.lean ====
section
/-! DEFINITION. The assembler of 30_encoding.md R86: the spelling of every instruction, reading source text, and
the bytes of a program of instructions, labels and directives. It has no effect on what the machine does
(D20). What R86 leaves open of the text's form is fixed in log 25. -/

namespace Sys2Proof.Machine

/-- A hexadecimal digit. -/
def hexDigit (n : Nibble) : String :=
  ["0", "1", "2", "3", "4", "5", "6", "7", "8", "9", "A", "B", "C", "D", "E", "F"].getD n.toNat "0"

/-- A register's name, `V0`..`VF`. -/
def regName (r : Reg) : String := "V" ++ hexDigit (nibbleOfReg r)

/-- A 4-bit number `n`. -/
def hexN (k : Nibble) : String := "0x" ++ hexDigit k

/-- A byte `kk`. -/
def hexKK (k : Byte) : String :=
  "0x" ++ hexDigit (k.extractLsb' 4 4) ++ hexDigit (k.extractLsb' 0 4)

/-- A 12-bit address `nnn`. -/
def hexNNN (k : Addr12) : String :=
  "0x" ++ hexDigit (k.extractLsb' 8 4) ++ hexDigit (k.extractLsb' 4 4) ++ hexDigit (k.extractLsb' 0 4)

/-- The instruction in the assembler's spelling (30_encoding.md R86). `SHR` and `SHL` are written with
their second register, which the spelling allows. -/
def asmText : Instr → String
  | .cls => "CLS"
  | .ret => "RET"
  | .jp k => "JP " ++ hexNNN k
  | .call k => "CALL " ++ hexNNN k
  | .seImm x k => "SE " ++ regName x ++ ", " ++ hexKK k
  | .sneImm x k => "SNE " ++ regName x ++ ", " ++ hexKK k
  | .seReg x y => "SE " ++ regName x ++ ", " ++ regName y
  | .ldImm x k => "LD " ++ regName x ++ ", " ++ hexKK k
  | .addImm x k => "ADD " ++ regName x ++ ", " ++ hexKK k
  | .ldReg x y => "LD " ++ regName x ++ ", " ++ regName y
  | .orReg x y => "OR " ++ regName x ++ ", " ++ regName y
  | .andReg x y => "AND " ++ regName x ++ ", " ++ regName y
  | .xorReg x y => "XOR " ++ regName x ++ ", " ++ regName y
  | .addReg x y => "ADD " ++ regName x ++ ", " ++ regName y
  | .subReg x y => "SUB " ++ regName x ++ ", " ++ regName y
  | .shr x y => "SHR " ++ regName x ++ ", " ++ regName y
  | .subn x y => "SUBN " ++ regName x ++ ", " ++ regName y
  | .shl x y => "SHL " ++ regName x ++ ", " ++ regName y
  | .sneReg x y => "SNE " ++ regName x ++ ", " ++ regName y
  | .ldI k => "LD I, " ++ hexNNN k
  | .jpV0 k => "JP V0, " ++ hexNNN k
  | .rnd x k => "RND " ++ regName x ++ ", " ++ hexKK k
  | .drw x y k => "DRW " ++ regName x ++ ", " ++ regName y ++ ", " ++ hexN k
  | .skp x => "SKP " ++ regName x
  | .sknp x => "SKNP " ++ regName x
  | .ldVxDt x => "LD " ++ regName x ++ ", DT"
  | .ldVxK x => "LD " ++ regName x ++ ", K"
  | .ldDtVx x => "LD DT, " ++ regName x
  | .ldStVx x => "LD ST, " ++ regName x
  | .addI x => "ADD I, " ++ regName x
  | .ldF x => "LD F, " ++ regName x
  | .ldB x => "LD B, " ++ regName x
  | .storeRegs x => "LD [I], " ++ regName x
  | .loadRegs x => "LD " ++ regName x ++ ", [I]"
  | .scd k => "SCD " ++ hexN k
  | .scr => "SCR"
  | .scl => "SCL"
  | .low => "LOW"
  | .high => "HIGH"

/-- The four instructions whose `nnn` may be a label. -/
inductive LabelUse where
  | jp
  | call
  | ldI
  | jpV0
  deriving DecidableEq, Repr

/-- An item of a program: an instruction, an instruction whose address is a label, a label (the address of
the next byte), `DB kk`, `DW 0xhhhh`, or `HALT` (30_encoding.md R86). -/
inductive AsmItem where
  | instr (i : Instr)
  | withLabel (u : LabelUse) (name : String)
  | label (name : String)
  | db (k : Byte)
  | dw (w : Word)
  | halt
  deriving DecidableEq, Repr

/-- How many bytes an item emits. -/
def AsmItem.size : AsmItem → Nat
  | .instr _ => 2
  | .withLabel _ _ => 2
  | .label _ => 0
  | .db _ => 1
  | .dw _ => 2
  | .halt => 2

/-- The address a label names, the first item lying at `start`. -/
def labelAddress (name : String) (start : Nat) : List AsmItem → Option Nat
  | [] => none
  | item :: rest =>
    if item = .label name then some start else labelAddress name (start + item.size) rest

/-- An instruction with its address filled in. -/
def LabelUse.instr (u : LabelUse) (k : Addr12) : Instr :=
  match u with
  | .jp => .jp k
  | .call => .call k
  | .ldI => .ldI k
  | .jpV0 => .jpV0 k

/-- The two bytes of a word, high byte first. -/
def wordBytes (w : Word) : List Byte := [firstByte w, secondByte w]

/-- The bytes of an item, given what each label names; none for a label that names no 12-bit address. -/
def itemBytes (find : String → Option Nat) : AsmItem → Option (List Byte)
  | .instr i => some (wordBytes (encode i))
  | .withLabel u name =>
    match find name with
    | some a => if a < 4096 then some (wordBytes (encode (u.instr (BitVec.ofNat 12 a)))) else none
    | none => none
  | .label _ => some []
  | .db k => some [k]
  | .dw w => some (wordBytes w)
  | .halt => some [0, 0]

/-- The bytes of the items, one after the other. -/
def bytesOfItems (find : String → Option Nat) : List AsmItem → Option (List Byte)
  | [] => some []
  | item :: rest =>
    match itemBytes find item, bytesOfItems find rest with
    | some b, some bs => some (b ++ bs)
    | _, _ => none

/-- The image of a program whose first byte lies at `origin` ("The assembler places the first emitted byte
at `LOAD_ORIGIN`", 30_encoding.md R86). -/
def assemble (origin : Nat) (items : List AsmItem) : Option (List Byte) :=
  bytesOfItems (fun name => labelAddress name origin items) items

/-! ### Reading source text (30_encoding.md R86; log 25) -/

/-- A piece of a source line. -/
inductive Token where
  | word (w : String)
  | comma
  | colon
  | openBracket
  | closeBracket
  deriving DecidableEq, Repr

/-- The word read so far, if there is one, before the tokens that follow it; its letters are in reverse. -/
def endWord (letters : List Char) (rest : List Token) : List Token :=
  match letters with
  | [] => rest
  | _ :: _ => .word (String.ofList letters.reverse) :: rest

/-- The tokens of a line: words, commas, colons and brackets, with blanks between them. -/
def tokens (letters : List Char) : List Char → List Token
  | [] => endWord letters []
  | c :: cs =>
    if c = ' ' ∨ c = '\t' ∨ c = '\r' then endWord letters (tokens [] cs)
    else if c = ',' then endWord letters (.comma :: tokens [] cs)
    else if c = ':' then endWord letters (.colon :: tokens [] cs)
    else if c = '[' then endWord letters (.openBracket :: tokens [] cs)
    else if c = ']' then endWord letters (.closeBracket :: tokens [] cs)
    else tokens (c :: letters) cs

/-- The value of a digit in the given base, 10 or 16; either case of a hexadecimal digit. -/
def digitValue (base : Nat) (c : Char) : Option Nat :=
  let v :=
    if '0' ≤ c ∧ c ≤ '9' then c.toNat - 48
    else if 'A' ≤ c ∧ c ≤ 'F' then c.toNat - 55
    else if 'a' ≤ c ∧ c ≤ 'f' then c.toNat - 87
    else 16
  if v < base then some v else none

/-- The number that some digits spell after the value `acc`. -/
def digitsValue (base acc : Nat) : List Char → Option Nat
  | [] => some acc
  | c :: cs =>
    match digitValue base c with
    | some v => digitsValue base (base * acc + v) cs
    | none => none

/-- "numbers are `0x` hexadecimal or decimal". -/
def numberOf : List Char → Option Nat
  | '0' :: 'x' :: c :: cs => digitsValue 16 0 (c :: cs)
  | c :: cs => digitsValue 10 0 (c :: cs)
  | [] => none

/-- A register name: `V` and one hexadecimal digit of either case. -/
def registerOf : List Char → Option Reg
  | ['V', c] => (digitValue 16 c).map (Fin.ofNat 16)
  | _ => none

/-- An operand as written: a register, a number, `[I]`, or a name (`I`, `DT`, a label and so on). -/
inductive AsmArg where
  | reg (r : Reg)
  | num (n : Nat)
  | atI
  | name (w : String)
  deriving DecidableEq, Repr

/-- The operand that a word spells. -/
def argOf (w : String) : AsmArg :=
  match registerOf w.toList, numberOf w.toList with
  | some r, _ => .reg r
  | none, some n => .num n
  | none, none => .name w

/-- The operands of a line: separated by commas, none missing. -/
def argsOf : List Token → Option (List AsmArg)
  | [] => some []
  | [.word w] => some [argOf w]
  | [.openBracket, .word "I", .closeBracket] => some [.atI]
  | .word w :: .comma :: t :: rest => (argsOf (t :: rest)).map (argOf w :: ·)
  | .openBracket :: .word "I" :: .closeBracket :: .comma :: t :: rest =>
    (argsOf (t :: rest)).map (.atI :: ·)
  | _ => none

/-- A byte `kk`, if the number fits. -/
def byteArg (n : Nat) (make : Byte → Instr) : Option AsmItem :=
  if n < 256 then some (.instr (make (BitVec.ofNat 8 n))) else none

/-- An address `nnn`: a number that fits, or a label. -/
def addrArg (a : AsmArg) (u : LabelUse) : Option AsmItem :=
  match a with
  | .num n => if n < 4096 then some (.instr (u.instr (BitVec.ofNat 12 n))) else none
  | .name w => some (.withLabel u w)
  | _ => none

/-- The load spellings, which are told apart by their operands. -/
def loadItem : List AsmArg → Option AsmItem
  | [.reg x, .num k] => byteArg k (.ldImm x)
  | [.reg x, .reg y] => some (.instr (.ldReg x y))
  | [.reg x, .atI] => some (.instr (.loadRegs x))
  | [.atI, .reg x] => some (.instr (.storeRegs x))
  | [.reg x, .name w] =>
    if w = "DT" then some (.instr (.ldVxDt x))
    else if w = "K" then some (.instr (.ldVxK x))
    else none
  | [.name w, a] =>
    if w = "I" then addrArg a .ldI
    else match a with
      | .reg x =>
        if w = "DT" then some (.instr (.ldDtVx x))
        else if w = "ST" then some (.instr (.ldStVx x))
        else if w = "F" then some (.instr (.ldF x))
        else if w = "B" then some (.instr (.ldB x))
        else none
      | _ => none
  | _ => none

/-- The instructions with two register operands, by their spelling. -/
def twoRegItem (w : String) (x y : Reg) : Option AsmItem :=
  if w = "SE" then some (.instr (.seReg x y))
  else if w = "SNE" then some (.instr (.sneReg x y))
  else if w = "OR" then some (.instr (.orReg x y))
  else if w = "AND" then some (.instr (.andReg x y))
  else if w = "XOR" then some (.instr (.xorReg x y))
  else if w = "ADD" then some (.instr (.addReg x y))
  else if w = "SUB" then some (.instr (.subReg x y))
  else if w = "SUBN" then some (.instr (.subn x y))
  else if w = "SHR" then some (.instr (.shr x y))
  else if w = "SHL" then some (.instr (.shl x y))
  else none

/-- The instructions with a register and a byte, by their spelling. -/
def regByteItem (w : String) (x : Reg) (k : Nat) : Option AsmItem :=
  if w = "SE" then byteArg k (.seImm x)
  else if w = "SNE" then byteArg k (.sneImm x)
  else if w = "ADD" then byteArg k (.addImm x)
  else if w = "RND" then byteArg k (.rnd x)
  else none

/-- The instructions with one register, by their spelling; `SHR Vx` and `SHL Vx` have `y = 0`. -/
def oneRegItem (w : String) (x : Reg) : Option AsmItem :=
  if w = "SHR" then some (.instr (.shr x 0))
  else if w = "SHL" then some (.instr (.shl x 0))
  else if w = "SKP" then some (.instr (.skp x))
  else if w = "SKNP" then some (.instr (.sknp x))
  else none

/-- The instructions and the pseudo-instruction without operands, by their spelling. -/
def plainItem (w : String) : Option AsmItem :=
  if w = "CLS" then some (.instr .cls)
  else if w = "RET" then some (.instr .ret)
  else if w = "SCR" then some (.instr .scr)
  else if w = "SCL" then some (.instr .scl)
  else if w = "LOW" then some (.instr .low)
  else if w = "HIGH" then some (.instr .high)
  else if w = "HALT" then some .halt
  else none

/-- The items with one number, by their spelling: `SCD n`, `DW 0xhhhh`. -/
def numberItem (w : String) (n : Nat) : Option AsmItem :=
  if w = "SCD" then (if n < 16 then some (.instr (.scd (BitVec.ofNat 4 n))) else none)
  else if w = "DW" then (if n < 65536 then some (.dw (BitVec.ofNat 16 n)) else none)
  else none

/-- The item that a spelling other than `DB` and its operands stand for. -/
def itemOf (w : String) (args : List AsmArg) : Option AsmItem :=
  if w = "LD" then loadItem args
  else if w = "JP" then
    match args with
    | [a] => addrArg a .jp
    | [.reg r, a] => if r = Reg.V0 then addrArg a .jpV0 else none
    | _ => none
  else if w = "CALL" then
    match args with
    | [a] => addrArg a .call
    | _ => none
  else if w = "DRW" then
    match args with
    | [.reg x, .reg y, .num n] => if n < 16 then some (.instr (.drw x y (BitVec.ofNat 4 n))) else none
    | _ => none
  else
    match args with
    | [] => plainItem w
    | [.reg x] => oneRegItem w x
    | [.num n] => numberItem w n
    | [.reg x, .num k] => regByteItem w x k
    | [.reg x, .reg y] => twoRegItem w x y
    | [.name n, .reg x] => if w = "ADD" ∧ n = "I" then some (.instr (.addI x)) else none
    | _ => none

/-- The operands of `DB`: the bytes they spell, in their order. -/
def byteItems : List AsmArg → Option (List AsmItem)
  | [] => some []
  | .num n :: rest =>
    if n < 256 then (byteItems rest).map (.db (BitVec.ofNat 8 n) :: ·) else none
  | _ => none

/-- The items that a spelling and its operands stand for. DESIGN CHOICE (log 25): `DB` takes one byte or
several, each an item of its own. 30_encoding.md R86 writes `DB kk` and one byte; program P4 of
95_test_vectors.md writes `DB 0xFF, 0x81`. `DB` with no operand is refused. -/
def itemsOf (w : String) (args : List AsmArg) : Option (List AsmItem) :=
  if w = "DB" then
    match args with
    | [] => none
    | _ :: _ => byteItems args
  else (itemOf w args).map (fun item => [item])

/-- The items of a line after its label. -/
def statementOf : List Token → Option (List AsmItem)
  | [] => some []
  | .word w :: rest =>
    match argsOf rest with
    | some args => itemsOf w args
    | none => none
  | _ => none

/-- The items of a line: nothing, a label, a statement, or a label and a statement. -/
def lineItems (line : List Char) : Option (List AsmItem) :=
  match tokens [] line with
  | .word name :: .colon :: rest => (statementOf rest).map (.label name :: ·)
  | ts => statementOf ts

/-- The lines of a text; `line` holds the letters of the line begun, in reverse. -/
def linesOf (line : List Char) : List Char → List (List Char)
  | [] => [line.reverse]
  | c :: cs => if c = '\n' then line.reverse :: linesOf [] cs else linesOf (c :: line) cs

/-- The items of lines, one after the other; none if a line cannot be read. -/
def itemsOfLines : List (List Char) → Option (List AsmItem)
  | [] => some []
  | line :: rest =>
    match lineItems line, itemsOfLines rest with
    | some items, some more => some (items ++ more)
    | _, _ => none

/-- The image of a source text whose first byte lies at `origin`. -/
def assembleText (origin : Nat) (text : String) : Option (List Byte) :=
  match itemsOfLines (linesOf [] text.toList) with
  | some items => assemble origin items
  | none => none

end Sys2Proof.Machine
end

