-- ==== Sys2Proof/Tests/Slice0.lean ====
section
/-! SUPPORT. The model's own tests: ill-formed terms that the checks of WellFormed.lean refuse, the decoding of
every row of the opcode table by a word written out from 30_encoding.md R80, single steps whose expected results
are the vectors of 95_test_vectors.md, and, for every obligation with hypotheses, a witness that meets them. -/

namespace Sys2Proof.Tests

open Sys2Proof.Machine

/-! ### Helpers -/

/-- A fresh machine with configuration `c` and the word `op` at `0x200` (its origin). -/
def at200 (c : Config) (op : Word) : State := placeWord (State.constructed c) op

/-- The default configuration. -/
def cfg0 : Config := Config.default

/-- The state after one step. -/
def stepped (s : State) : State := s.after .step

/-- Sixteen entries on the stack. -/
def fullStack : List Word := List.replicate 16 0x202

/-- The keys with those of a list down. -/
def keysDown (ks : List (Fin 16)) (s : State) : State := ks.foldl (fun t k => t.setKey k true) s

/-! ### The checks of WellFormed.lean refuse ill-formed terms -/

theorem test_memSize_too_small_refused : (Config.legal { cfg0 with memSize := 79, loadOrigin := 0 }) = false := by decide
theorem test_memSize_too_large_refused : (Config.legal { cfg0 with memSize := 0xFFFD }) = false := by decide
theorem test_loadOrigin_refused : (Config.legal { cfg0 with loadOrigin := 4097 }) = false := by decide
theorem test_stackDepth_refused : (Config.legal { cfg0 with stackDepth := .bounded 0 }) = false := by decide
theorem test_zero_depth_illegal : (StackDepth.bounded 0).legal = false ∧ StackDepth.unbounded.legal = true := by decide
theorem test_defaults_legal : cfg0.legal = true := by decide
theorem test_keyDown_refused :
    (HostOp.keyDown 16).wellFormed cfg0 = false ∧ (HostOp.keyDown 15).wellFormed cfg0 = true := by decide
theorem test_keyUp_refused :
    (HostOp.keyUp 16).wellFormed cfg0 = false ∧ (HostOp.keyUp 15).wellFormed cfg0 = true := by decide
theorem test_load_refused :
    (HostOp.load [1, 2] (some 4095)).wellFormed cfg0 = false
      ∧ (HostOp.load [1, 2] (some 4094)).wellFormed cfg0 = true
      ∧ (HostOp.load [1, 2] none).wellFormed { cfg0 with loadOrigin := 4095 } = false := by decide
theorem test_construct_refuses_illegal :
    construct { cfg0 with memSize := 79 } = .refused .illegalConfiguration := by rfl

/-! ### Decoding: one word per row of 30_encoding.md R80, its bits written out from the row's format -/

theorem test_decode_cls : decode 0b0000000011100000 = .ok .cls := by rfl
theorem test_decode_ret : decode 0b0000000011101110 = .ok .ret := by rfl
theorem test_decode_jp : decode 0b0001001100000001 = .ok (.jp 0x301) := by rfl
theorem test_decode_call : decode 0b0010101111001101 = .ok (.call 0xBCD) := by rfl
theorem test_decode_seImm : decode 0b0011111110101011 = .ok (.seImm 0xF 0xAB) := by rfl
theorem test_decode_sneImm : decode 0b0100001101000010 = .ok (.sneImm 3 0x42) := by rfl
theorem test_decode_seReg : decode 0b0101101010110000 = .ok (.seReg 0xA 0xB) := by rfl
theorem test_decode_ldImm : decode 0b0110001010101010 = .ok (.ldImm 2 0xAA) := by rfl
theorem test_decode_addImm : decode 0b0111000010101100 = .ok (.addImm 0 0xAC) := by rfl
theorem test_decode_ldReg : decode 0b1000111100000000 = .ok (.ldReg 0xF 0) := by rfl
theorem test_decode_orReg : decode 0b1000111100000001 = .ok (.orReg 0xF 0) := by rfl
theorem test_decode_andReg : decode 0b1000000000010010 = .ok (.andReg 0 1) := by rfl
theorem test_decode_xorReg : decode 0b1000010101010011 = .ok (.xorReg 5 5) := by rfl
theorem test_decode_addReg : decode 0b1000101010110100 = .ok (.addReg 0xA 0xB) := by rfl
theorem test_decode_subReg : decode 0b1000101010110101 = .ok (.subReg 0xA 0xB) := by rfl
theorem test_decode_shr : decode 0b1000000000010110 = .ok (.shr 0 1) := by rfl
theorem test_decode_subn : decode 0b1000000000010111 = .ok (.subn 0 1) := by rfl
theorem test_decode_shl : decode 0b1000101010111110 = .ok (.shl 0xA 0xB) := by rfl
theorem test_decode_sneReg : decode 0b1001101010110000 = .ok (.sneReg 0xA 0xB) := by rfl
theorem test_decode_ldI : decode 0b1010110000011011 = .ok (.ldI 0xC1B) := by rfl
theorem test_decode_jpV0 : decode 0b1011111111111111 = .ok (.jpV0 0xFFF) := by rfl
theorem test_decode_rnd : decode 0b1100001111110000 = .ok (.rnd 3 0xF0) := by rfl
theorem test_decode_drw : decode 0b1101000100101111 = .ok (.drw 1 2 0xF) := by rfl
theorem test_decode_skp : decode 0b1110001010011110 = .ok (.skp 2) := by rfl
theorem test_decode_sknp : decode 0b1110000110100001 = .ok (.sknp 1) := by rfl
theorem test_decode_ldVxDt : decode 0b1111010100000111 = .ok (.ldVxDt 5) := by rfl
theorem test_decode_ldVxK : decode 0b1111001100001010 = .ok (.ldVxK 3) := by rfl
theorem test_decode_ldDtVx : decode 0b1111000000010101 = .ok (.ldDtVx 0) := by rfl
theorem test_decode_ldStVx : decode 0b1111000000011000 = .ok (.ldStVx 0) := by rfl
theorem test_decode_addI : decode 0b1111111100011110 = .ok (.addI 0xF) := by rfl
theorem test_decode_ldF : decode 0b1111010000101001 = .ok (.ldF 4) := by rfl
theorem test_decode_ldB : decode 0b1111000000110011 = .ok (.ldB 0) := by rfl
theorem test_decode_storeRegs : decode 0b1111010101010101 = .ok (.storeRegs 5) := by rfl
theorem test_decode_loadRegs : decode 0b1111001001100101 = .ok (.loadRegs 2) := by rfl
theorem test_decode_scd : decode 0b0000000011000111 = .ok (.scd 7) := by rfl
theorem test_decode_scr : decode 0b0000000011111011 = .ok .scr := by rfl
theorem test_decode_scl : decode 0b0000000011111100 = .ok .scl := by rfl
theorem test_decode_low : decode 0b0000000011111110 = .ok .low := by rfl
theorem test_decode_high : decode 0b0000000011111111 = .ok .high := by rfl

/-- The unknown words of vectors D2, D3, D5 to D10. -/
theorem test_decode_unknown :
    decode 0x00E1 = .error .unknownInstruction ∧ decode 0x0123 = .error .unknownInstruction
      ∧ decode 0x00FD = .error .unknownInstruction ∧ decode 0x5AB1 = .error .unknownInstruction
      ∧ decode 0x8AB8 = .error .unknownInstruction ∧ decode 0x9ABF = .error .unknownInstruction
      ∧ decode 0xE29F = .error .unknownInstruction ∧ decode 0xE2A2 = .error .unknownInstruction
      ∧ decode 0xF230 = .error .unknownInstruction :=
  ⟨rfl, rfl, rfl, rfl, rfl, rfl, rfl, rfl, rfl⟩

/-- The masks and the match values of the rows, in the order of the table of R80. -/
theorem test_masks :
    rows.map (fun r => (r.format.mask, r.format.pattern)) =
      [(0xFFFF, 0x00E0), (0xFFFF, 0x00EE), (0xF000, 0x1000), (0xF000, 0x2000), (0xF000, 0x3000),
       (0xF000, 0x4000), (0xF00F, 0x5000), (0xF000, 0x6000), (0xF000, 0x7000)]
      ++ [(0xF00F, 0x8000), (0xF00F, 0x8001), (0xF00F, 0x8002), (0xF00F, 0x8003), (0xF00F, 0x8004),
       (0xF00F, 0x8005), (0xF00F, 0x8006), (0xF00F, 0x8007), (0xF00F, 0x800E), (0xF00F, 0x9000)]
      ++ [(0xF000, 0xA000), (0xF000, 0xB000), (0xF000, 0xC000), (0xF000, 0xD000), (0xF0FF, 0xE09E),
       (0xF0FF, 0xE0A1), (0xF0FF, 0xF007), (0xF0FF, 0xF00A), (0xF0FF, 0xF015), (0xF0FF, 0xF018),
       (0xF0FF, 0xF01E), (0xF0FF, 0xF029), (0xF0FF, 0xF033), (0xF0FF, 0xF055), (0xF0FF, 0xF065)]
      ++ [(0xFFF0, 0x00C0), (0xFFFF, 0x00FB), (0xFFFF, 0x00FC), (0xFFFF, 0x00FE), (0xFFFF, 0x00FF)] := by
  decide

/-- The host's view of a row's word: `8ABE`. -/
theorem test_decodeTableWord : decodeTableWord 16 0x8ABE = some (.shl 0xA 0xB) := by rfl

/-! ### Single steps: vectors of 95_test_vectors.md (the vector's number in each name's comment) -/

/-- E1, S13. -/
theorem test_reset_exits : (stepped State.reset).exit = some 0 ∧ (stepped State.reset).pc = 0x200 := by decide
/-- E2: `BFFF` with `V0 = 01`; then the end of memory is an exit. -/
theorem test_jump_past_the_end_exits :
    let t := stepped ((at200 cfg0 0xBFFF).setReg 0 1)
    t.pc = 0x1000 ∧ (stepped t).exit = some 0 := by decide
/-- E3. -/
theorem test_straddle :
    (stepped (stepped (at200 cfg0 0x1FFF))).fault = some ⟨.fetchStraddle, 0xFFF, 0⟩ := by decide
/-- E5: an odd address is fetched from. -/
theorem test_odd_pc :
    let t := stepped ((((at200 cfg0 0).memWrite 0x301 0x60).memWrite 0x302 0x07).setPc 0x301)
    t.reg 0 = 7 ∧ t.pc = 0x303 := by decide
/-- E6. -/
theorem test_unknown_faults :
    (stepped (at200 cfg0 0xFFFF)).fault = some ⟨.unknownInstruction, 0x200, 0xFFFF⟩
      ∧ (stepped (at200 cfg0 0xFFFF)).pc = 0x200 := by decide
/-- V8. -/
theorem test_cls :
    let t := stepped ((at200 cfg0 0x00E0).setScreen (Screen.blank.put 31 63 true))
    t.screen.pixel 31 63 = false ∧ t.pc = 0x202 := by decide
/-- V2: the column is the old `VF`. -/
theorem test_drw_reads_vf_first :
    let t := stepped ((((at200 cfg0 0xDF11).setReg 0xF 0xA).setI 0x300).memWrite 0x300 0x80)
    t.screen.pixel 0 10 = true ∧ t.reg 0xF = 0 := by decide
/-- V5 and the wrap of V3: a collision on one pixel, the next one set. -/
theorem test_drw_collides_and_wraps :
    let t := stepped (((((at200 cfg0 0xD011).setReg 0 63).setI 0x300).memWrite 0x300 0xC0).setScreen
      (Screen.blank.put 0 63 true))
    t.screen.pixel 0 63 = false ∧ t.screen.pixel 0 0 = true ∧ t.reg 0xF = 1 := by decide
/-- V9. -/
theorem test_scd : (stepped (at200 cfg0 0x00C4)).fault = some ⟨.notImplemented, 0x200, 0x00C4⟩ := by decide
theorem test_scr : (stepped (at200 cfg0 0x00FB)).fault = some ⟨.notImplemented, 0x200, 0x00FB⟩ := by decide
theorem test_scl : (stepped (at200 cfg0 0x00FC)).fault = some ⟨.notImplemented, 0x200, 0x00FC⟩ := by decide
theorem test_low : (stepped (at200 cfg0 0x00FE)).fault = some ⟨.notImplemented, 0x200, 0x00FE⟩ := by decide
theorem test_high : (stepped (at200 cfg0 0x00FF)).fault = some ⟨.notImplemented, 0x200, 0x00FF⟩ := by decide
/-- S8. -/
theorem test_ret :
    let t := stepped ((at200 cfg0 0x00EE).setStack [16, 15])
    t.pc = 16 ∧ t.stack = [15] := by decide
theorem test_ret_underflow :
    (stepped (at200 cfg0 0x00EE)).fault = some ⟨.stackUnderflow, 0x200, 0x00EE⟩ := by decide
/-- C1. -/
theorem test_call :
    (stepped (at200 cfg0 0x2300)).pc = 0x300 ∧ (stepped (at200 cfg0 0x2300)).stack = [0x202] := by decide
/-- C3. -/
theorem test_call_overflow :
    let t := stepped ((at200 cfg0 0x2400).setStack fullStack)
    t.fault = some ⟨.stackOverflow, 0x200, 0x2400⟩ ∧ t.stack = fullStack := by decide
/-- C10. -/
theorem test_jp : (stepped (at200 cfg0 0x1200)).pc = 0x200 := by decide
/-- C5. -/
theorem test_seImm : (stepped ((at200 cfg0 0x3342).setReg 3 0x42)).pc = 0x204
    ∧ (stepped ((at200 cfg0 0x3343).setReg 3 0x42)).pc = 0x202 := by decide
/-- C6. -/
theorem test_sneImm : (stepped ((at200 cfg0 0x4342).setReg 3 0x42)).pc = 0x202
    ∧ (stepped ((at200 cfg0 0x4343).setReg 3 0x42)).pc = 0x204 := by decide
/-- C7. -/
theorem test_seReg : (stepped (at200 cfg0 0x5330)).pc = 0x204 := by decide
theorem test_sneReg : (stepped (at200 cfg0 0x9330)).pc = 0x202 := by decide
/-- C9. -/
theorem test_jpV0 : (stepped ((at200 cfg0 0xBFFF).setReg 0 0xFF)).pc = 0x10FE := by decide
/-- S3. -/
theorem test_ldImm : (stepped (at200 cfg0 0x62AA)).reg 2 = 0xAA ∧ (stepped (at200 cfg0 0x62AA)).pc = 0x202 := by
  decide
/-- A2: a sum as data in `VF`. -/
theorem test_addImm : (stepped ((at200 cfg0 0x7FFF).setReg 0xF 1)).reg 0xF = 0 := by decide
/-- A26. -/
theorem test_ldReg : (stepped ((at200 cfg0 0x8F00).setReg 0 9)).reg 0xF = 9 := by decide
/-- A23: no flag. -/
theorem test_orReg : (stepped (((at200 cfg0 0x8F01).setReg 0xF 0x0F).setReg 0 0xF0)).reg 0xF = 0xFF := by decide
/-- A24. -/
theorem test_andReg : (stepped (((at200 cfg0 0x8012).setReg 0 0xF0).setReg 1 0x3C)).reg 0 = 0x30 := by decide
theorem test_xorReg : (stepped (((at200 cfg0 0x8013).setReg 0 0xF0).setReg 1 0x3C)).reg 0 = 0xCC := by decide
/-- A8: the old `VF` is the operand. -/
theorem test_addReg :
    let t := stepped (((at200 cfg0 0x80F4).setReg 0 1).setReg 0xF 0xFF)
    t.reg 0 = 0 ∧ t.reg 0xF = 1 := by decide
/-- A6: the carry overwrites the result. -/
theorem test_addReg_into_vf : (stepped (((at200 cfg0 0x8F04).setReg 0xF 0x10).setReg 0 0x20)).reg 0xF = 0 := by
  decide
/-- A9. -/
theorem test_subReg :
    let t := stepped (((at200 cfg0 0x8015).setReg 0 1).setReg 1 2)
    t.reg 0 = 0xFF ∧ t.reg 0xF = 0 := by decide
/-- A10: equal operands do not borrow. -/
theorem test_subReg_equal :
    let t := stepped ((at200 cfg0 0x8335).setReg 3 7)
    t.reg 3 = 0 ∧ t.reg 0xF = 1 := by decide
/-- A15. -/
theorem test_shr_vx :
    let t := stepped (((at200 cfg0 0x8016).setReg 0 0x10).setReg 1 3)
    t.reg 0 = 8 ∧ t.reg 0xF = 0 := by decide
theorem test_shr_vy :
    let t := stepped (((at200 { cfg0 with shiftSource := .vy } 0x8016).setReg 0 0x10).setReg 1 3)
    t.reg 0 = 1 ∧ t.reg 0xF = 1 := by decide
/-- A17. -/
theorem test_subn :
    let t := stepped (((at200 cfg0 0x8017).setReg 0 0x10).setReg 1 8)
    t.reg 0 = 0xF8 ∧ t.reg 0xF = 0 := by decide
/-- A22. -/
theorem test_shl_vx :
    let t := stepped (((at200 cfg0 0x801E).setReg 0 1).setReg 1 0xC0)
    t.reg 0 = 2 ∧ t.reg 0xF = 0 := by decide
theorem test_shl_vy :
    let t := stepped (((at200 { cfg0 with shiftSource := .vy } 0x801E).setReg 0 1).setReg 1 0xC0)
    t.reg 0 = 0x80 ∧ t.reg 0xF = 1 := by decide
/-- A27: for whatever state draws `5A`. -/
theorem test_rnd (s t : State) (h : s.randomByte = 0x5A) (ht : exec (.rnd 3 0xF0) s = .next t) :
    t.reg 3 = 0x50 := by
  cases ht
  show (s.countDraw.v.set 3 (s.randomByte &&& 0xF0))[3] = 0x50
  rw [h]
  simp
/-- M1. -/
theorem test_ldI : (stepped ((at200 cfg0 0xA000).setI 0x123)).i = 0 := by decide
/-- M2. -/
theorem test_addI :
    let t := stepped ((((at200 cfg0 0xF01E).setI 0xFFFF).setReg 0 2).setReg 0xF 7)
    t.i = 1 ∧ t.reg 0xF = 7 := by decide
/-- S11. -/
theorem test_ldF : (stepped ((at200 cfg0 0xF429).setReg 4 0xA)).i = 50 := by decide
/-- M5. -/
theorem test_ldF_fault :
    (stepped ((at200 cfg0 0xF029).setReg 0 0x10)).fault = some ⟨.fontIndex, 0x200, 0xF029⟩ := by decide
/-- S12. -/
theorem test_ldB :
    let t := stepped (((at200 cfg0 0xF033).setReg 0 254).setI 0x300)
    (t.memRead 0x300, t.memRead 0x301, t.memRead 0x302) = (0x0A, 0x19, 0x14) := by decide
/-- M10: the digits wrap into the font. -/
theorem test_ldB_wraps :
    let t := stepped (((at200 cfg0 0xF033).setReg 0 123).setI 0xFFE)
    (t.memRead 0xFFE, t.memRead 0xFFF, t.memRead 0) = (5, 10, 15) := by decide
/-- M14: `COMPAT_MODE` and both wraps. -/
theorem test_storeRegs_compat :
    let t := stepped ((((at200 { cfg0 with compatMode := true } 0xF155).setI 0xFFFF).setReg 0 0x11).setReg 1 0x22)
    t.memRead 0xFFF = 0x11 ∧ t.memRead 0 = 0x22 ∧ t.i = 1 := by decide
/-- S10, the mode off. -/
theorem test_storeRegs :
    let t := stepped (((at200 cfg0 0xF555).setI 0x300).setReg 5 6)
    t.memRead 0x305 = 6 ∧ t.i = 0x300 := by decide
/-- M15: `VF` is data. -/
theorem test_loadRegs :
    let t := stepped ((((at200 cfg0 0xFF65).setI 0x300).memWrite 0x300 0x10).memWrite 0x30F 0x1F)
    t.reg 0 = 0x10 ∧ t.reg 0xF = 0x1F := by decide
/-- M16: the stored word is executed. -/
theorem test_stored_word_runs :
    let t := stepped (stepped ((((at200 cfg0 0xF155).setI 0x202).setReg 0 0x60).setReg 1 7))
    t.reg 0 = 7 ∧ t.pc = 0x204 := by decide
/-- K2. -/
theorem test_skp : (stepped (((at200 cfg0 0xE19E).setReg 1 5).setKey 5 true)).pc = 0x204 := by decide
theorem test_sknp : (stepped (((at200 cfg0 0xE1A1).setReg 1 5).setKey 5 true)).pc = 0x202 := by decide
/-- K3. -/
theorem test_skp_fault :
    (stepped ((at200 cfg0 0xE19E).setReg 1 0x10)).fault = some ⟨.keyIndex, 0x200, 0xE19E⟩ := by decide
/-- S9: no key, and then key 5. -/
theorem test_ldVxK_waits :
    let t := stepped (at200 cfg0 0xF30A)
    t.block = true ∧ t.pc = 0x200 ∧ (stepped (t.after (.keyDown 5))).reg 3 = 5 := by decide
/-- K4. -/
theorem test_ldVxK_lowest :
    let t := stepped (keysDown [9, 3] (at200 cfg0 0xF20A))
    t.reg 2 = 3 ∧ t.block = false ∧ t.pc = 0x202 := by decide
/-- T5. -/
theorem test_ldVxDt : (stepped ((at200 cfg0 0xF507).setDt 0x3C)).reg 5 = 0x3C := by decide
/-- T1. -/
theorem test_ldDtVx : (stepped ((at200 cfg0 0xF015).setReg 0 3)).dt = 3 := by decide
/-- T2: and the tone ends with the tick. -/
theorem test_ldStVx :
    let t := stepped ((at200 cfg0 0xF018).setReg 0 1)
    t.st = 1 ∧ t.audio = true ∧ (t.after .tick).audio = false := by decide
/-- T3, and the clamp of T1. -/
theorem test_ticks :
    let s := (State.reset.setDt 5).setSt 5
    (s.after .decDt).dt = 4 ∧ (s.after .decDt).st = 5 ∧ (State.reset.after .tick).dt = 0 := by decide
/-- L2 and L1 in small: an image that ends at the end of memory fits, one byte more does not. -/
theorem test_load :
    (State.reset.after (.load [0x60, 0x07] (some 0xFFE))).memRead 0xFFF = 7
      ∧ (State.reset.after (.load [0x60, 0x07] (some 0xFFF))) = State.reset := by decide
/-- R312: the default origin is `LOAD_ORIGIN`, here 0x300. -/
theorem test_load_default :
    let t := (State.constructed { cfg0 with loadOrigin := 0x300 }).after (.load [0x60, 0x07] none)
    t.pc = 0x300 ∧ t.fetchWord = 0x6007 := by decide
/-- L4: the keys are kept, the latch is cleared. -/
theorem test_reset :
    let t := ((stepped (at200 cfg0 0x00EE)).after (.keyDown 7)).after .reset
    t.fault = none ∧ t.key 7 = true ∧ t.pc = 0x200 := by decide
/-- 30_encoding.md R86: `JP end`, `DB 7`, `end:`, `HALT` at 0x200. -/
theorem test_assemble :
    assemble 0x200 [.withLabel .jp "end", .db 7, .label "end", .halt] = some [0x12, 0x03, 7, 0, 0] := by
  decide
/-- The source text and the image of program P1 of 95_test_vectors.md. -/
theorem test_assembleText :
    assembleText 0x200 "LD V0, 0\nLD V1, 5\nloop: ADD V0, 1\nSE V0, V1\nJP loop\nHALT"
      = some [0x60, 0x00, 0x61, 0x05, 0x70, 0x01, 0x50, 0x10, 0x12, 0x04, 0x00, 0x00] := by decide
/-- The sprite of program P4: `DB` with two bytes; a number that does not fit its field is refused. -/
theorem test_assembleText_db :
    assembleText 0x210 "sprite: DB 0xFF, 0x81" = some [0xFF, 0x81]
      ∧ assembleText 0x210 "DB 0xFF, 256" = none ∧ assembleText 0x210 "DB" = none := by decide

/-! ### Witnesses: for every obligation with hypotheses, a concrete state and operands that meet them. Where an
obligation has several clauses there is a witness per clause, at a boundary value of its range. -/

/-- EncodeOfDecodeIsIdentity. -/
theorem witness_encode_of_decode : decode 0x00C7 = .ok (.scd 7) := by rfl

/-- FormatMatchesByMaskAndMatch: a digit in a format, and a character that is none. -/
theorem witness_format :
    (Format.x 0xE 0x9 0xE).c3 = .digit 0xE ∧ ∀ d, FormatChar.X ≠ .digit d := ⟨rfl, by decide⟩

/-- A machine with the last instruction word of memory, `op`, at `PC`: `PC + 1` is the highest address. -/
def atEnd (op : Word) : State :=
  (((State.reset.memWrite 0xFFE (firstByte op)).memWrite 0xFFF (secondByte op)).setPc 0xFFE)

/-- StepRunsTheDecodedInstruction, the advance: at the last word of memory, `60 01`. -/
theorem witness_step_advances :
    let s := atEnd 0x6001
    Running s ∧ s.pc.toNat + 1 < s.cfg.memSize
      ∧ (0x6001 : Word).toNat = 256 * (s.memRead s.pc.toNat).toNat + (s.memRead (s.pc.toNat + 1)).toNat
      ∧ decode 0x6001 = .ok (.ldImm 0 1) ∧ isJump (.ldImm 0 1) = false
      ∧ ∃ t, exec (.ldImm 0 1) s = .next t ∧ t.fault = none ∧ t.block = false :=
  ⟨⟨rfl, rfl⟩, by decide, by decide, rfl, rfl, _, rfl, rfl, rfl⟩

/-- The word at `PC` of `atEnd op`. -/
def wordThere (s : State) : Nat := 256 * (s.memRead s.pc.toNat).toNat + (s.memRead (s.pc.toNat + 1)).toNat

/-- StepRunsTheDecodedInstruction, no advance: a fault, a jump, a blocked machine. -/
theorem witness_step_stays :
    (Running (atEnd 0x00FB) ∧ (0x00FB : Word).toNat = wordThere (atEnd 0x00FB) ∧ decode 0x00FB = .ok .scr
        ∧ ∃ t, exec .scr (atEnd 0x00FB) = .next t ∧ t.fault ≠ none)
      ∧ (Running (atEnd 0x1200) ∧ (0x1200 : Word).toNat = wordThere (atEnd 0x1200)
        ∧ decode 0x1200 = .ok (.jp 0x200)
        ∧ isJump (.jp 0x200) = true ∧ ∃ t, exec (.jp 0x200) (atEnd 0x1200) = .next t)
      ∧ (Running (atEnd 0xF00A) ∧ (0xF00A : Word).toNat = wordThere (atEnd 0xF00A)
        ∧ decode 0xF00A = .ok (.ldVxK 0)
        ∧ ∃ t, exec (.ldVxK 0) (atEnd 0xF00A) = .next t ∧ t.block = true) :=
  ⟨⟨⟨rfl, rfl⟩, by decide, rfl, _, rfl, by decide⟩, ⟨⟨rfl, rfl⟩, by decide, rfl, rfl, _, rfl⟩,
    ⟨⟨rfl, rfl⟩, by decide, rfl, _, rfl, rfl⟩⟩

/-- StepTestsComeInOrder: a latched exit, `PC = MEM_SIZE`, `PC = MEM_SIZE - 1`, the sentinel and an unknown word
at the last word of memory. -/
theorem witness_step_tests :
    (State.reset.setExit 0).exit ≠ none
      ∧ (let s := State.reset.setPc 0x1000; Running s ∧ s.cfg.memSize ≤ s.pc.toNat)
      ∧ (let s := State.reset.setPc 0xFFF; Running s ∧ s.pc.toNat + 1 = s.cfg.memSize)
      ∧ (let s := atEnd 0; Running s ∧ s.pc.toNat + 1 < s.cfg.memSize ∧ s.fetchWord = 0)
      ∧ (let s := atEnd 0xFFFF; Running s ∧ s.pc.toNat + 1 < s.cfg.memSize ∧ s.fetchWord ≠ 0) := by decide

/-- StepTestsComeInOrder: `FFFF` is on the list of illegal words. -/
theorem witness_illegal_word : illegalWord 0xFFFF := by
  unfold illegalWord
  decide

/-- AnEndedRunStaysEnded: a faulted machine, and operations that are neither RESET nor LOAD. -/
theorem witness_ended :
    Ended (stepped (at200 cfg0 0x00EE)) ∧
      ∀ op ∈ [HostOp.step, .tick, .keyDown 3], op ≠ .reset ∧ ∀ image origin, op ≠ .load image origin := by
  refine ⟨by decide, ?_⟩
  intro op h
  simp only [List.mem_cons, List.not_mem_nil, or_false] at h
  rcases h with rfl | rfl | rfl <;> exact ⟨by simp, by simp⟩

/-- AFaultIsPreciseAndListed: a running machine and a step that latches a fault, for each kind that a step can
latch. -/
theorem witness_faults :
    (Running (State.reset.setPc 0xFFF)
        ∧ ((stepped (State.reset.setPc 0xFFF)).fault.map (·.kind)) = some .fetchStraddle)
      ∧ (Running (atEnd 0xFFFF) ∧ ((stepped (atEnd 0xFFFF)).fault.map (·.kind)) = some .unknownInstruction)
      ∧ (Running (atEnd 0x00CF) ∧ ((stepped (atEnd 0x00CF)).fault.map (·.kind)) = some .notImplemented)
      ∧ (Running (atEnd 0x00EE) ∧ ((stepped (atEnd 0x00EE)).fault.map (·.kind)) = some .stackUnderflow)
      ∧ (let s := (atEnd 0x2FFF).setStack fullStack;
          Running s ∧ ((stepped s).fault.map (·.kind)) = some .stackOverflow)
      ∧ (let s := (atEnd 0xF029).setReg 0 16;
          Running s ∧ ((stepped s).fault.map (·.kind)) = some .fontIndex)
      ∧ (let s := (atEnd 0xEFA1).setReg 0xF 16;
          Running s ∧ ((stepped s).fault.map (·.kind)) = some .keyIndex) := by decide

/-- ConstructionMeetsTheInvariant and ResetLeavesTheResetValues: legal configurations at both ends of the range
of `MEM_SIZE`. -/
theorem witness_legal_configurations :
    Config.legal { cfg0 with memSize := 80, loadOrigin := 80 } = true
      ∧ Config.legal { cfg0 with memSize := 0xFFFC, stackDepth := .bounded 1 } = true
      ∧ (atEnd 0x00E0).cfg.legal = true := by decide

/-- EveryStepKeepsTheInvariant and EveryHostOperationKeepsTheInvariant: a machine that waits
for a key, with entries on its stack, meets the invariant. -/
def waiting : State := ((at200 cfg0 0xF30A).setStack [0x202, 0x1000]).setBlock true

theorem witness_waiting_inv : Inv waiting where
  cfg := by decide
  mem := by decide
  stack := show 2 ≤ 16 by decide
  pc := .inl (by decide)
  returns := show ∀ a ∈ [(0x202 : Word), 0x1000], a.toNat ≤ 4096 by simp
  block := fun _ => ⟨3, by decide⟩
  latches := ⟨.inl rfl, .inl rfl⟩

theorem witness_waiting_steps : ∃ t, step waiting = .next t := ⟨_, rfl⟩

/-- ProgramCounterNeverWraps: at the last word of the largest memory, where `PC + 4` is the largest. -/
theorem witness_pc :
    let c : Config := { cfg0 with memSize := 0xFFFC, loadOrigin := 0xFFFA }
    c.legal = true ∧ (State.constructed c).pc.toNat < c.memSize ∧ (State.constructed c).pc = 0xFFFA := by decide

/-- ProgramCounterNeverWraps: that machine meets the invariant. -/
theorem witness_pc_inv : Inv (State.constructed { cfg0 with memSize := 0xFFFC, loadOrigin := 0xFFFA }) where
  cfg := by decide
  mem := by decide
  stack := show 0 ≤ 16 by decide
  pc := .inr (by decide)
  returns := fun _ h => nomatch h
  block := by intro h; cases h
  latches := ⟨.inl rfl, .inl rfl⟩

/-- MemoriesThatReadAlikeAreEqual: a canonical memory with entries; written in another order it reads alike. -/
theorem witness_memories :
    let m := Memory.write cfg0 (Memory.write cfg0 [] 0xFFF 1) 0x000 2
    let n := Memory.write cfg0 (Memory.write cfg0 [] 0x000 2) 0xFFF 1
    Memory.wf cfg0 m = true ∧ Memory.wf cfg0 n = true ∧ m.length = 2
      ∧ ∀ a < cfg0.memSize, Memory.read cfg0 m a = Memory.read cfg0 n a := by
  refine ⟨by decide, by decide, by decide, ?_⟩
  intro a _
  rfl

/-- EachInstructionWritesOnlyItsParts: a legal machine with bytes in memory, and an instruction that stores. -/
theorem witness_parts :
    let s := (at200 cfg0 0xF055).setI 0xFFFF
    s.cfg.legal = true ∧ Memory.wf s.cfg s.mem = true
      ∧ ∃ t, exec (.storeRegs 0) s = .next t := ⟨by decide, by decide, _, rfl⟩

/-- NoInstructionReadsTheSoundTimer: a step that runs `FX18`, and one that does not. -/
theorem witness_sound_timer :
    fetch (at200 cfg0 0xFF18) = .runs (.ldStVx 0xF) ∧ (∃ t, step (at200 cfg0 0xFF18) = .next t)
      ∧ (¬ ∃ x, fetch (at200 cfg0 0xFF15) = .runs (.ldStVx x)) ∧ ∃ t, step (at200 cfg0 0xFF15) = .next t :=
  ⟨rfl, ⟨_, rfl⟩, by decide, ⟨_, rfl⟩⟩

/-- KeysAreReadByThreeInstructionsOnly and CompatModeIsReadByTwoInstructionsOnly: `FX33` is none of the five. -/
theorem witness_other_instruction :
    (∀ x, Instr.ldB 0 ≠ .skp x ∧ Instr.ldB 0 ≠ .sknp x ∧ Instr.ldB 0 ≠ .ldVxK x)
      ∧ (∀ x, Instr.ldB 0 ≠ .storeRegs x ∧ Instr.ldB 0 ≠ .loadRegs x)
      ∧ ∃ t, exec (.ldB 0) State.reset = .next t := ⟨by decide, by decide, _, rfl⟩

/-- DrawXorsTheSpriteAndReportsCollision: a collision, and none; the sprite's last row and last column. -/
theorem witness_draw :
    let s := ((at200 cfg0 0xD01F).setI 0x300).memWrite 0x30E 0x01
    spriteBit s 0 1 15 14 7 = true ∧ spriteBit s 0 1 15 14 8 = false ∧ spriteBit s 0 1 15 15 7 = false
      ∧ Collides (s.setScreen (Screen.blank.put 14 7 true)) 0 1 15 :=
  ⟨by decide, by decide, by decide, 14, by decide, 7, by decide, by decide, by decide⟩

/-- DrawXorsTheSpriteAndReportsCollision: nothing collides on a blank screen. -/
theorem witness_no_collision (s : State) (h : s.screen = Screen.blank) : ¬ Collides s 0 1 15 := by
  rintro ⟨r, hr, c, hc, hp, _⟩
  rw [h] at hp
  simp [Screen.blank, Screen.pixel] at hp

/-- DrawingTwiceRestoresTheScreen: a blank screen and a sprite with a bit set. -/
theorem witness_draw_twice :
    (0 : Reg) ≠ Reg.VF ∧ (14 : Reg) ≠ Reg.VF ∧ State.reset.screen = Screen.blank
      ∧ ∃ r < 32, ∃ c < 64, spriteBit State.reset 0 14 1 r c = true :=
  ⟨by decide, by decide, rfl, 0, by decide, 0, by decide, by decide⟩

/-- JumpGoesToItsConstant: a jump to itself, and a running machine with a target at the end of its memory. -/
theorem witness_jump :
    (State.reset.pc.toNat = (0x200 : Addr12).toNat)
      ∧ (let s := State.constructed { cfg0 with memSize := 4095 };
          Running s ∧ s.cfg.memSize ≤ (0xFFF : Addr12).toNat) := by decide

/-- SkipsMovePcByFourOrTwo: words that are not the register skips. -/
theorem witness_not_skips :
    ((0x5AB1 : Word) &&& 0xF000 = 0x5000 ∧ (0x5AB1 : Word) &&& 0x000F ≠ 0)
      ∧ ((0x9ABF : Word) &&& 0xF000 = 0x9000 ∧ (0x9ABF : Word) &&& 0x000F ≠ 0) := by decide

/-- CallPushesTheReturnAddress and ReturnResumesAfterTheCall: room for the last entry, room without a bound. -/
theorem witness_room :
    (∀ n, (State.reset.setStack (fullStack.drop 1)).cfg.stackDepth = .bounded n →
        (State.reset.setStack (fullStack.drop 1)).stack.length < n)
      ∧ (∀ n, (State.constructed { cfg0 with stackDepth := .unbounded }).cfg.stackDepth = .bounded n →
        (State.constructed { cfg0 with stackDepth := .unbounded }).stack.length < n) := by
  constructor
  · intro n h
    cases h
    decide
  · intro n h
    cases h

/-- ReturnResumesAfterTheCall, the steps: vector C1, the call at 0x200 and the return at 0x300. -/
theorem witness_call_return :
    let s := (at200 cfg0 0x2300).memWriteAll 0x300 [0x00, 0xEE]
    fetch s = .runs (.call 0x300) ∧ fetch (stepped s) = .runs .ret := by decide

/-- CallPushesTheReturnAddress: a full stack. -/
theorem witness_full :
    let s := State.reset.setStack fullStack
    s.cfg.stackDepth = .bounded 16 ∧ s.stack.length = 16 := by decide

/-- ReturnPopsIntoPc: a stack of one entry, and an empty one. -/
theorem witness_return :
    (State.reset.setStack [0x1000]).stack = 0x1000 :: [] ∧ State.reset.stack = [] := by decide

/-- AddSetsTheCarry, SubtractionsSetNotBorrow, ShiftsSetTheBitShiftedOut: a destination that is not `VF`, and
the shift's operand in both modes. -/
theorem witness_shift_operands :
    (14 : Reg) ≠ Reg.VF
      ∧ (let s := State.reset.setReg 0 1;
          (1 : Byte) = if s.cfg.shiftSource = .vx then s.reg 0 else s.reg 1)
      ∧ (let s := (State.constructed { cfg0 with shiftSource := .vy }).setReg 1 0x80;
          (0x80 : Byte) = if s.cfg.shiftSource = .vx then s.reg 0 else s.reg 1) := by decide

/-- CharacterAddressByPolicy and KeySkipsTestTheNamedKey: 15, and 16 or 255 under each policy. -/
theorem witness_indices :
    (State.reset.setReg 0 15).reg 0 = 15
      ∧ (let s := State.reset.setReg 0 16;
          15 < (s.reg 0).toNat ∧ s.cfg.fontIndexPolicy = .fault ∧ s.cfg.keyIndexPolicy = .fault)
      ∧ (let s :=
          (State.constructed { cfg0 with fontIndexPolicy := .lowNibble, keyIndexPolicy := .lowNibble }).setReg 0 16;
          15 < (s.reg 0).toNat ∧ s.cfg.fontIndexPolicy = .lowNibble ∧ s.cfg.keyIndexPolicy = .lowNibble)
      ∧ (let s := (State.constructed { cfg0 with fontIndexPolicy := .multiply }).setReg 0 255;
          (s.reg 0).toNat = 255 ∧ s.cfg.fontIndexPolicy = .multiply) := by decide

/-- BcdStoresThreeDigits: both modes, the largest value, at the end of memory. -/
theorem witness_bcd :
    (let s := (State.reset.setReg 0 255).setI 0xFFF;
      s.cfg.legal = true ∧ Memory.wf s.cfg s.mem = true ∧ 255 = (s.reg 0).toNat
        ∧ 5 = (if s.cfg.bcdMode = .fontAddress then 5 else 1))
      ∧ (let s := (State.constructed { cfg0 with bcdMode := .rawDigit }).setReg 0 255;
        s.cfg.legal = true ∧ Memory.wf s.cfg s.mem = true ∧ 255 = (s.reg 0).toNat
        ∧ 1 = (if s.cfg.bcdMode = .fontAddress then 5 else 1)) := by decide

/-- StoreRegistersWritesMemory and LoadRegistersReadsMemory: both modes, the last register. -/
theorem witness_store :
    (let s := (at200 { cfg0 with compatMode := true } 0xFF55).setI 0xFFFF;
      s.cfg.legal = true ∧ Memory.wf s.cfg s.mem = true ∧ s.cfg.compatMode = true ∧ (15 : Reg) ≤ 15)
      ∧ (let s := (at200 cfg0 0xFF55).setI 0xFFFF;
        s.cfg.legal = true ∧ Memory.wf s.cfg s.mem = true ∧ s.cfg.compatMode = false) := by decide

/-- StoredWordIsFetchedNext, `FX55`: vector M16 at the last place where the next word still fits; both bytes
are stored. -/
theorem witness_stored_word :
    let s := ((((State.reset.memWrite 0xFFC 0xF1).memWrite 0xFFD 0x55).setPc 0xFFC).setI 0xFFE).setReg 1 7
    s.cfg.legal = true ∧ Memory.wf s.cfg s.mem = true ∧ fetch s = .runs (.storeRegs 1) ∧ s.block = false
      ∧ StoresBytes s (.storeRegs 1) [0, 7] ∧ s.pc.toNat + 3 < s.cfg.memSize
      ∧ ByteAfterStore s [0, 7] (s.pc.toNat + 2) 0 ∧ ByteAfterStore s [0, 7] (s.pc.toNat + 3) 7 :=
  ⟨by decide, by decide, by decide, rfl, .inl ⟨1, rfl, rfl, by decide⟩, by decide, by unfold ByteAfterStore; decide,
    by unfold ByteAfterStore; decide⟩

/-- StoredWordIsFetchedNext, `FX33`: the last digit of 123, times 5, lands on the first byte of the next word,
whose second byte is not stored to. -/
theorem witness_stored_digit :
    let s := (((at200 cfg0 0xF033).setI 0x200).setReg 0 123).memWrite 0x203 0xE0
    s.cfg.legal = true ∧ Memory.wf s.cfg s.mem = true ∧ fetch s = .runs (.ldB 0) ∧ s.block = false
      ∧ StoresBytes s (.ldB 0) [5, 10, 15] ∧ s.pc.toNat + 3 < s.cfg.memSize
      ∧ ByteAfterStore s [5, 10, 15] (s.pc.toNat + 2) 15 ∧ ByteAfterStore s [5, 10, 15] (s.pc.toNat + 3) 0xE0 :=
  ⟨by decide, by decide, by decide, rfl, .inr ⟨0, 5, rfl, by decide, by decide⟩, by decide,
    by unfold ByteAfterStore; decide, by unfold ByteAfterStore; decide⟩

/-- WaitForKeyBlocksOrTakesAKey and WaitStateMachine: at an `FX0A`, no key down, and the last key down. -/
theorem witness_wait :
    fetch (at200 cfg0 0xFF0A) = .runs (.ldVxK 0xF) ∧ (∀ k, (at200 cfg0 0xFF0A).key k = false)
      ∧ fetch (keysDown [15] (at200 cfg0 0xFF0A)) = .runs (.ldVxK 0xF)
      ∧ (∃ k, (keysDown [15] (at200 cfg0 0xFF0A)).key k = true)
      ∧ (keysDown [15] (at200 cfg0 0xFF0A)).cfg.keySelect = .lowestIndex := by decide

/-- WaitStateMachine: a step from RUN and one from WAIT that leave the machine in WAIT. -/
theorem witness_stays_waiting :
    (at200 cfg0 0xF30A).block = false ∧ (stepped (at200 cfg0 0xF30A)).block = true
      ∧ fetch waiting = .runs (.ldVxK 3) ∧ (stepped waiting).block = true := by decide

/-- KeyEventsSetOneKey: the first index that is refused. -/
theorem witness_key_refused : 16 ≤ 16 ∧ perform (.keyDown 16) State.reset = .refused (.noSuchKey 16) := ⟨by decide, rfl⟩

/-- LoadPlacesTheImage: an image that ends at the end of memory, one that is a byte too long, and an empty image
at the end of memory. -/
theorem witness_load :
    State.reset.cfg.legal = true
      ∧ 0xFFE + ([0x60, 0x07] : List Byte).length ≤ State.reset.cfg.memSize
      ∧ State.reset.cfg.memSize < 0xFFF + ([0x60, 0x07] : List Byte).length
      ∧ 0x1000 + ([] : List Byte).length ≤ State.reset.cfg.memSize := by decide

/-- LoadPlacesTheImage: an origin given, and none given, where it is `LOAD_ORIGIN`. -/
theorem witness_load_origins :
    (some 0xFFE = some 0xFFE ∨ (some 0xFFE = none ∧ 0xFFE = State.reset.cfg.loadOrigin))
      ∧ ((none : Option Nat) = some 0x200 ∨ ((none : Option Nat) = none ∧ 0x200 = State.reset.cfg.loadOrigin)) := by
  decide

/-- AFreshMachineExitsAtItsFirstStep: the lowest origin above the font, and the end of memory. -/
theorem witness_fresh :
    (let c : Config := { cfg0 with loadOrigin := 80 };
      c.legal = true ∧ 80 ≤ c.loadOrigin ∧ c.loadOrigin + 1 ≠ c.memSize)
      ∧ (let c : Config := { cfg0 with loadOrigin := 4096 };
        c.legal = true ∧ 80 ≤ c.loadOrigin ∧ c.loadOrigin + 1 ≠ c.memSize) := by decide

end Sys2Proof.Tests
end

section
/-! The frame of every instruction: what the branching instructions can do, then one frame lemma per update of
the state, then one frame per instruction, put together from the updates it makes (10_state.md). -/

namespace Sys2Proof.Machine

/-! ### What the branching instructions do -/

/-- `RET` latches its fault on an empty stack, or pops (42_control_flow.md R141). -/
theorem exec_ret_cases {s t : State} (h : exec .ret s = .next t) :
    (s.stack = [] ∧ t = s.raise .stackUnderflow (encode .ret))
      ∨ ∃ top rest, s.stack = top :: rest ∧ t = (s.setStack rest).setPc top := by
  simp only [exec, execRet] at h
  cases hs : s.stack with
  | nil => rw [hs] at h; cases h; exact .inl ⟨rfl, rfl⟩
  | cons top rest => rw [hs] at h; cases h; exact .inr ⟨top, rest, rfl, rfl⟩

/-- `CALL` latches its fault on a full stack, or pushes `PC + 2` and jumps (42_control_flow.md R143). -/
theorem exec_call_cases {s t : State} {k : Addr12} (h : exec (.call k) s = .next t) :
    (s.stackFull = true ∧ t = s.raise .stackOverflow (encode (.call k)))
      ∨ (s.stackFull = false ∧ t = (s.push (s.pc + 2)).setPc (k.setWidth 16)) := by
  simp only [exec, execCall] at h
  cases hf : s.stackFull with
  | true => rw [hf] at h; cases h; exact .inl ⟨rfl, rfl⟩
  | false => rw [hf] at h; cases h; exact .inr ⟨rfl, rfl⟩

/-- `SKP` and `SKNP` skip by some condition or latch a fault (45_keyboard.md R231, R232). -/
theorem exec_keySkip_cases {s t : State} {i : Instr} {x : Reg} (hi : i = .skp x ∨ i = .sknp x)
    (h : exec i s = .next t) : (∃ cond, t = s.skipIf cond) ∨ ∃ kind op, t = s.raise kind op := by
  obtain rfl | rfl := hi
  all_goals
    simp only [exec, execSkp, execSknp] at h
    split at h <;> cases h
    · exact .inl ⟨_, rfl⟩
    · exact .inr ⟨_, _, rfl⟩

/-- `LD F` sets `I` or latches a fault (44_index_memory.md R202). -/
theorem exec_ldF_cases {s t : State} {x : Reg} (h : exec (.ldF x) s = .next t) :
    (∃ w, t = s.setI w) ∨ ∃ kind op, t = s.raise kind op := by
  simp only [exec, execLdF] at h
  split at h <;> cases h
  · exact .inl ⟨_, rfl⟩
  · exact .inr ⟨_, _, rfl⟩

/-- `LD Vx, K` blocks, or ends the wait with a key in `V[x]`, perhaps after one draw (45_keyboard.md R233,
R234). -/
theorem exec_ldVxK_cases {s t : State} {x : Reg} (h : exec (.ldVxK x) s = .next t) :
    t = s.setBlock true
      ∨ ∃ drawn b, (drawn = s ∨ drawn = s.countDraw) ∧ t = (drawn.setReg x b).setBlock false := by
  simp only [exec, execLdVxK] at h
  by_cases hk : ∃ k, s.key k = true
  · obtain ⟨k, drawn, hfirst, -, hdrawn, -⟩ := s.firstPressed_some hk
    rw [hfirst] at h; cases h
    exact .inr ⟨drawn, _, hdrawn, rfl⟩
  · rw [s.firstPressed_none (by simpa using hk)] at h; cases h
    exact .inl rfl

/-! ### Frames, one lemma per update -/

/-- A frame over canonical memory: `t` has every part of `s` but the allowed ones, and its memory is still in
canonical form, which reading single bytes does not show. -/
structure Frame (s t : State) (allowed : Part → Prop) : Prop where
  only : OnlyChanges s t allowed
  wf   : Memory.wf t.cfg t.mem = true

namespace Frame

variable {s t : State} {allowed : Part → Prop}

theorem refl (hwf : Memory.wf s.cfg s.mem = true) : Frame s s allowed :=
  ⟨fun p _ => by cases p <;> simp [Same], hwf⟩

/-- An update of the allowed part `q` alone, outside memory and the configuration, keeps the frame. -/
theorem update {u : State} (h : Frame s t allowed) (q : Part) (hq : allowed q)
    (hmem : u.mem = t.mem ∧ u.cfg = t.cfg) (hsame : ∀ p, p ≠ q → Same s t p → Same s u p) :
    Frame s u allowed where
  only p hp := hsame p (fun heq => hp (heq ▸ hq)) (h.only p hp)
  wf := by rw [hmem.1, hmem.2]; exact h.wf

theorem setReg (h : Frame s t allowed) {r : Reg} {b : Byte} (hr : allowed (.reg r)) :
    Frame s (t.setReg r b) allowed :=
  h.update _ hr ⟨rfl, rfl⟩ fun p hp hs => by
    cases p with
    | reg q => simpa [Same, show q ≠ r from fun hq => hp (hq ▸ rfl)] using hs
    | _ => exact hs

theorem countDraw (h : Frame s t allowed) (hd : allowed .draws) : Frame s t.countDraw allowed :=
  h.update _ hd ⟨rfl, rfl⟩ fun p hp hs => by
    cases p with
    | draws => exact absurd rfl hp
    | _ => exact hs

theorem setI (h : Frame s t allowed) {w : Word} (hi : allowed .i) : Frame s (t.setI w) allowed :=
  h.update _ hi ⟨rfl, rfl⟩ fun p hp hs => by
    cases p with
    | i => exact absurd rfl hp
    | _ => exact hs

theorem setPc (h : Frame s t allowed) {w : Word} (hpc : allowed .pc) : Frame s (t.setPc w) allowed :=
  h.update _ hpc ⟨rfl, rfl⟩ fun p hp hs => by
    cases p with
    | pc => exact absurd rfl hp
    | _ => exact hs

theorem setStack (h : Frame s t allowed) {l : List Word} (hst : allowed .stack) :
    Frame s (t.setStack l) allowed :=
  h.update _ hst ⟨rfl, rfl⟩ fun p hp hs => by
    cases p with
    | stack => exact absurd rfl hp
    | _ => exact hs

theorem setDt (h : Frame s t allowed) {b : Byte} (hdt : allowed .dt) : Frame s (t.setDt b) allowed :=
  h.update _ hdt ⟨rfl, rfl⟩ fun p hp hs => by
    cases p with
    | dt => exact absurd rfl hp
    | _ => exact hs

theorem setSt (h : Frame s t allowed) {b : Byte} (hst : allowed .st) : Frame s (t.setSt b) allowed :=
  h.update _ hst ⟨rfl, rfl⟩ fun p hp hs => by
    cases p with
    | st => exact absurd rfl hp
    | _ => exact hs

theorem setScreen (h : Frame s t allowed) {g : Screen} (hg : allowed .screen) :
    Frame s (t.setScreen g) allowed :=
  h.update _ hg ⟨rfl, rfl⟩ fun p hp hs => by
    cases p with
    | screen => exact absurd rfl hp
    | _ => exact hs

theorem setBlock (h : Frame s t allowed) {b : Bool} (hb : allowed .block) : Frame s (t.setBlock b) allowed :=
  h.update _ hb ⟨rfl, rfl⟩ fun p hp hs => by
    cases p with
    | block => exact absurd rfl hp
    | _ => exact hs

theorem raise (h : Frame s t allowed) {kind : Fault} {op : Word} (hf : allowed .fault) :
    Frame s (t.raise kind op) allowed :=
  h.update _ hf ⟨rfl, rfl⟩ fun p hp hs => by
    cases p with
    | fault => exact absurd rfl hp
    | _ => exact hs

/-- A result and the flag of 43_alu.md R170 change two registers. -/
theorem writeResultFlag (h : Frame s t allowed) {x : Reg} {b : Byte} {flag : Bool} (hx : allowed (.reg x))
    (hflag : allowed (.reg Reg.VF)) : Frame s (t.writeResultFlag x b flag) allowed :=
  (h.setReg hx).setReg hflag

theorem loadRegsFrom (h : Frame s t allowed) (a : Nat) {rs : List Reg} (hrs : ∀ r ∈ rs, allowed (.reg r)) :
    Frame s (t.loadRegsFrom a rs) allowed := by
  induction rs generalizing t with
  | nil => exact h
  | cons r rs ih =>
    exact ih (h.setReg (hrs r List.mem_cons_self)) fun q hq => hrs q (List.mem_cons_of_mem r hq)

/-- `FX55` and `FX65` change `I` under `COMPAT_MODE` only (44_index_memory.md R204, R205). -/
theorem compatAdvanceI (h : Frame s t allowed) {x : Reg} (hi : t.cfg.compatMode = true → allowed .i) :
    Frame s (t.compatAdvanceI x) allowed := by
  unfold State.compatAdvanceI
  split
  · exact h.setI (hi ‹_›)
  · exact h

/-- Stores change the bytes at the reduced addresses and keep the canonical form (20_memory.md R51, R57). -/
theorem memWriteAll (hwf : Memory.wf s.cfg s.mem = true) (hsize : 0 < s.cfg.memSize) {a : Nat} {bs : List Byte}
    (hbs : ∀ j < bs.length, allowed (.byte ((a + j) % s.cfg.memSize))) :
    Frame s (s.memWriteAll a bs) allowed where
  only p hp := by
    cases p with
    | byte b =>
      intro hb
      refine State.memWriteAll_other s a b bs hwf hsize fun j hj heq => hp ?_
      rw [← Nat.mod_eq_of_lt hb, heq]
      exact hbs j hj
    | _ => rw [State.memWriteAll_eq]; exact rfl
  wf := by rw [State.memWriteAll_cfg]; exact State.memWriteAll_wf s a bs hwf hsize

end Frame

/-- The sizes that a legal configuration allows (00_scope.md R10). -/
theorem legal_sizes {c : Config} (h : c.legal = true) :
    80 ≤ c.memSize ∧ c.memSize ≤ 0xFFFC ∧ c.loadOrigin ≤ c.memSize := by
  simp only [Config.legal, Bool.and_eq_true, decide_eq_true_eq] at h
  exact ⟨h.1.1.1, h.1.1.2, h.1.2⟩

/-- Every instruction keeps to its parts and keeps memory canonical. -/
theorem exec_frame {s t : State} {i : Instr} (hlegal : s.cfg.legal = true)
    (hwf : Memory.wf s.cfg s.mem = true) (h : exec i s = .next t) : Frame s t (mayChange s i) := by
  have hsize : 0 < s.cfg.memSize := by have := (legal_sizes hlegal).1; omega
  have hs : Frame s s (mayChange s i) := .refl hwf
  cases i with
  | cls => cases h; exact hs.setScreen rfl
  | ret =>
    obtain ⟨-, rfl⟩ | ⟨top, rest, -, rfl⟩ := exec_ret_cases h
    · exact hs.raise (.inr (.inr rfl))
    · exact (hs.setStack (.inl rfl)).setPc (.inr (.inl rfl))
  | call k =>
    obtain ⟨-, rfl⟩ | ⟨-, rfl⟩ := exec_call_cases h
    · exact hs.raise (.inr (.inr rfl))
    · exact (hs.setStack (.inl rfl)).setPc (.inr (.inl rfl))
  | jp _ | jpV0 _ | seImm _ _ | sneImm _ _ | seReg _ _ | sneReg _ _ => cases h; exact hs.setPc rfl
  | ldImm _ _ | addImm _ _ | ldReg _ _ | orReg _ _ | andReg _ _ | xorReg _ _ | ldVxDt _ =>
    cases h; exact hs.setReg rfl
  | addReg _ _ | subReg _ _ | shr _ _ | subn _ _ | shl _ _ =>
    cases h; exact hs.writeResultFlag (.inl rfl) (.inr rfl)
  | ldI _ | addI _ => cases h; exact hs.setI rfl
  | rnd _ _ => cases h; exact (hs.countDraw (.inr rfl)).setReg (.inl rfl)
  | drw _ _ _ => cases h; exact (hs.setScreen (.inl rfl)).setReg (.inr rfl)
  | skp x | sknp x =>
    obtain ⟨cond, rfl⟩ | ⟨kind, op, rfl⟩ := exec_keySkip_cases (x := x) (by simp) h
    · exact hs.setPc (.inl rfl)
    · exact hs.raise (.inr rfl)
  | ldVxK x =>
    obtain rfl | ⟨drawn, b, rfl | rfl, rfl⟩ := exec_ldVxK_cases h
    · exact hs.setBlock (.inr (.inl rfl))
    · exact (hs.setReg (.inl rfl)).setBlock (.inr (.inl rfl))
    · exact ((hs.countDraw (.inr (.inr rfl))).setReg (.inl rfl)).setBlock (.inr (.inl rfl))
  | ldDtVx _ => cases h; exact hs.setDt rfl
  | ldStVx _ => cases h; exact hs.setSt rfl
  | ldF x =>
    obtain ⟨w, rfl⟩ | ⟨kind, op, rfl⟩ := exec_ldF_cases h
    · exact hs.setI (.inl rfl)
    · exact hs.raise (.inr rfl)
  | ldB x =>
    cases h
    exact .memWriteAll hwf hsize fun j hj => ⟨j, by simpa using hj, rfl⟩
  | storeRegs x =>
    cases h
    have hstored : Frame s (s.memWriteAll s.i.toNat ((regsUpTo x).map s.reg)) (mayChange s (.storeRegs x)) :=
      .memWriteAll hwf hsize fun j hj => .inl ⟨j, by simpa [regsUpTo_length, Nat.lt_succ_iff] using hj, rfl⟩
    exact hstored.compatAdvanceI fun hmode => .inr ⟨by simpa using hmode, rfl⟩
  | loadRegs x =>
    cases h
    have hloaded : Frame s (s.loadRegsFrom s.i.toNat (regsUpTo x)) (mayChange s (.loadRegs x)) :=
      hs.loadRegsFrom _ fun r hr => .inl ⟨r, (mem_regsUpTo x r).mp hr, rfl⟩
    refine hloaded.compatAdvanceI fun hmode => .inr ⟨?_, rfl⟩
    rwa [(s.loadRegsFrom_other _ _).2.1] at hmode
  | scd _ | scr | scl | low | high => cases h; exact hs.raise rfl

end Sys2Proof.Machine

namespace Sys2Proof
open Sys2Proof.Machine

/-- Settles O19: the first half of the frame of every instruction. -/
theorem eachInstructionWritesOnlyItsParts : Obligations.EachInstructionWritesOnlyItsParts :=
  fun _ _ _ hlegal hwf h => (exec_frame hlegal hwf h).only

end Sys2Proof
end

section
/-! Every step keeps the invariant (10_state.md R26, R31, R40, R41; 92_eei_decisions.md D32): bounds of the stack
and of `PC` first, then the latch cases and the retired instruction. -/

namespace Sys2Proof.Machine

/-! ### Retiring -/

/-- Retiring replaces `PC` alone. -/
theorem retire_eq_setPc (i : Instr) (t : State) : retire i t = t.setPc (retire i t).pc := by
  obtain h | h := retire_cases i t
  · rw [h]; rfl
  · rw [h]; rfl

/-- No instruction changes the configuration (10_state.md R43). -/
theorem Frame.cfg {s t : State} {i : Instr} (h : Frame s t (mayChange s i)) : t.cfg = s.cfg :=
  h.only .cfg (by cases i <;> simp [mayChange])

/-- No instruction sets the exit latch (10_state.md R41). -/
theorem Frame.exit {s t : State} {i : Instr} (h : Frame s t (mayChange s i)) : t.exit = s.exit :=
  h.only .exit (by cases i <;> simp [mayChange])

/-! ### The stack -/

/-- The bound on the stack says something under a bounded `STACK_DEPTH` only (10_state.md R31). -/
theorem stackBounded_iff (s : State) :
    StackBounded s ↔ ∀ n, s.cfg.stackDepth = .bounded n → s.stack.length ≤ n := by
  unfold StackBounded
  cases s.cfg.stackDepth <;> simp

/-- A stack that is not full has room for one more entry (10_state.md R31). -/
theorem length_lt_of_not_stackFull {s : State} (h : s.stackFull = false) (n : Nat)
    (hn : s.cfg.stackDepth = .bounded n) : s.stack.length < n := by
  simpa [State.stackFull, hn] using h

/-- What an instruction does to the stack: nothing, a pop, or the push of `PC + 2` where there is room
(10_state.md R30). -/
theorem exec_stack_cases {s t : State} {i : Instr} (hframe : Frame s t (mayChange s i))
    (h : exec i s = .next t) :
    t.stack = s.stack ∨ (∃ top, s.stack = top :: t.stack)
      ∨ (s.stackFull = false ∧ t.stack = (s.pc + 2) :: s.stack) := by
  cases i with
  | ret =>
    obtain ⟨-, rfl⟩ | ⟨top, rest, hs, rfl⟩ := exec_ret_cases h
    · exact .inl rfl
    · exact .inr (.inl ⟨top, hs⟩)
  | call k =>
    obtain ⟨-, rfl⟩ | ⟨hroom, rfl⟩ := exec_call_cases h
    · exact .inl rfl
    · exact .inr (.inr ⟨hroom, rfl⟩)
  | _ => exact .inl (hframe.only .stack (by simp [mayChange]))

theorem exec_stackBounded {s t : State} {i : Instr} (hframe : Frame s t (mayChange s i))
    (h : exec i s = .next t) (hs : StackBounded s) : StackBounded t := by
  rw [stackBounded_iff] at hs ⊢
  rw [hframe.cfg]
  intro n hn
  obtain hst | ⟨top, hst⟩ | ⟨hroom, hst⟩ := exec_stack_cases hframe h
  · rw [hst]; exact hs n hn
  · have := hs n hn
    rw [hst, List.length_cons] at this
    omega
  · rw [hst, List.length_cons]
    exact length_lt_of_not_stackFull hroom n hn

theorem exec_returnsBounded {s t : State} {i : Instr} (hframe : Frame s t (mayChange s i))
    (h : exec i s = .next t) (hpc : s.pc.toNat + 1 < s.cfg.memSize)
    (hs : ReturnsBounded s) : ReturnsBounded t := by
  intro a ha
  rw [hframe.cfg]
  obtain hst | ⟨top, hst⟩ | ⟨-, hst⟩ := exec_stack_cases hframe h
  · exact hs a (hst ▸ ha)
  · exact hs a (hst ▸ List.mem_cons_of_mem top ha)
  · rw [hst] at ha
    obtain rfl | ha := List.mem_cons.mp ha
    · bv_omega
    · exact hs a ha

/-! ### The program counter -/

/-- `PC` is listed with the jump-style instructions only (40_execution_cycle.md R104). -/
theorem isJump_of_mayChange_pc {s : State} {i : Instr} (h : mayChange s i .pc) : isJump i = true := by
  cases i with
  | ret | jp _ | call _ | seImm _ _ | sneImm _ _ | seReg _ _ | sneReg _ _ | jpV0 _ | skp _ | sknp _ => rfl
  | _ => simp [mayChange] at h

/-- A skip from inside memory lands at most two bytes past its end (42_control_flow.md R149). -/
theorem skipIf_pcBounded {s : State} (hsize : s.cfg.memSize ≤ 0xFFFC) (hpc : s.pc.toNat + 1 < s.cfg.memSize)
    (cond : Bool) : PcBounded (s.skipIf cond) := by
  right
  simp only [State.skipIf, State.setPc_pc, State.setPc_cfg]
  cases cond <;> simp only [if_true, Bool.false_eq_true, if_false] <;> bv_omega

/-- A jump-style instruction leaves `PC` within its bounds (10_state.md R26). -/
theorem exec_jump_pcBounded {s t : State} {i : Instr} (hsize : s.cfg.memSize ≤ 0xFFFC)
    (hpc : s.pc.toNat + 1 < s.cfg.memSize) (hret : ReturnsBounded s) (hjump : isJump i = true)
    (h : exec i s = .next t) : PcBounded t := by
  have hs : PcBounded s := .inr (by omega)
  have hskip := skipIf_pcBounded hsize hpc
  cases i with
  | ret =>
    obtain ⟨-, rfl⟩ | ⟨top, rest, hst, rfl⟩ := exec_ret_cases h
    · exact hs
    · have : top.toNat ≤ s.cfg.memSize := hret top (by simp [hst])
      exact .inr (Nat.le_add_right_of_le this)
  | call k =>
    obtain ⟨-, rfl⟩ | ⟨-, rfl⟩ := exec_call_cases h
    · exact hs
    · left; simp only [State.setPc_pc]; bv_omega
  | jp _ | jpV0 _ => cases h; left; simp only [State.setPc_pc]; bv_omega
  | seImm _ _ | sneImm _ _ | seReg _ _ | sneReg _ _ => cases h; exact hskip _
  | skp x | sknp x =>
    obtain ⟨cond, rfl⟩ | ⟨kind, op, rfl⟩ := exec_keySkip_cases (x := x) (by simp) h
    · exact hskip cond
    · exact hs
  | _ => cases hjump

theorem retire_pcBounded {s t : State} {i : Instr} (hframe : Frame s t (mayChange s i))
    (h : exec i s = .next t) (hsize : s.cfg.memSize ≤ 0xFFFC)
    (hpc : s.pc.toNat + 1 < s.cfg.memSize) (hret : ReturnsBounded s) : PcBounded (retire i t) := by
  cases hjump : isJump i with
  | true => rw [retire_jump i t hjump]; exact exec_jump_pcBounded hsize hpc hret hjump h
  | false =>
    have hkept : t.pc = s.pc := hframe.only .pc fun hp => by simp [isJump_of_mayChange_pc hp] at hjump
    right
    obtain hr | hr := retire_cases i t
    · rw [hr, hframe.cfg, hkept]; omega
    · rw [hr, State.setPc_cfg, hframe.cfg, State.setPc_pc, hkept]; bv_omega

/-! ### Waiting for a key -/

/-- Only a wait for a key can leave `Block` true, and it changes nothing else (10_state.md R40). -/
theorem exec_leaves_block {s t : State} {i : Instr} (hframe : Frame s t (mayChange s i))
    (h : exec i s = .next t) (hwait : s.block = true → ∃ x, i = .ldVxK x) (hb : t.block = true) :
    ∃ x, i = .ldVxK x ∧ t = s.setBlock true := by
  by_cases hi : ∃ x, i = .ldVxK x
  · obtain ⟨x, rfl⟩ := hi
    obtain rfl | ⟨drawn, b, -, rfl⟩ := exec_ldVxK_cases h
    · exact ⟨x, rfl, rfl⟩
    · simp at hb
  · have hkept : t.block = s.block := hframe.only .block (by cases i <;> simp [mayChange] at hi ⊢)
    exact absurd (hwait (hkept ▸ hb)) hi

end Sys2Proof.Machine

namespace Sys2Proof
open Sys2Proof.Machine

/-! ### The invariant -/

/-- A machine that meets the invariant and is not about to run an `FX0A` does not wait. -/
theorem Inv.block_false {s : State} (h : Inv s) (hf : ∀ i, fetch s ≠ .runs i) : s.block = false := by
  by_contra hb
  obtain ⟨x, hx⟩ := h.block (by simpa using hb)
  exact hf _ hx

theorem Inv.setExit {s : State} (h : Inv s) (hf : fetch s = .exits) : Inv (s.setExit 0) where
  cfg := h.cfg
  mem := h.mem
  stack := h.stack
  pc := h.pc
  returns := h.returns
  block hb := by simp [h.block_false (by simp [hf])] at hb
  latches := ⟨.inr rfl, .inr ((fetch_exits_iff s).mp hf).1⟩

theorem Inv.raise {s : State} {kind : Fault} {op : Word} (h : Inv s) (hf : fetch s = .faults kind op) :
    Inv (s.raise kind op) where
  cfg := h.cfg
  mem := h.mem
  stack := h.stack
  pc := h.pc
  returns := h.returns
  block hb := by simp [h.block_false (by simp [hf])] at hb
  latches := by
    have hexit : s.exit = none := (fetch_faults s kind op hf).2.1
    exact ⟨.inl hexit, .inl hexit⟩

theorem Inv.retire {s t : State} {i : Instr} (h : Inv s) (hf : fetch s = .runs i) (ht : exec i s = .next t) :
    Inv (retire i t) := by
  obtain ⟨-, hexit, hpc, -⟩ := (fetch_runs_iff s i).mp hf
  have hframe := exec_frame h.cfg h.mem ht
  have hnone : t.exit = none := hframe.exit.trans hexit
  have hstack : StackBounded t := exec_stackBounded hframe ht h.stack
  have hreturns : ReturnsBounded t := exec_returnsBounded hframe ht hpc h.returns
  rw [retire_eq_setPc]
  exact {
    cfg := (congrArg Config.legal hframe.cfg).trans h.cfg
    mem := hframe.wf
    stack := hstack
    pc := by
      rw [← retire_eq_setPc]
      exact retire_pcBounded hframe ht (legal_sizes h.cfg).2.1 hpc h.returns
    returns := hreturns
    block := fun hb => by
      obtain ⟨x, rfl, rfl⟩ := exec_leaves_block hframe ht
        (fun hs => (h.block hs).imp fun x hx => by simpa [hf] using hx) hb
      rw [← retire_eq_setPc, retire_blocked _ _ rfl]
      exact ⟨x, hf⟩
    latches := ⟨.inl hnone, .inl hnone⟩ }

/-- Settles O15, along the four cases of a step. -/
theorem everyStepKeepsTheInvariant : Obligations.EveryStepKeepsTheInvariant := by
  intro s t hinv hstep
  obtain ⟨-, rfl⟩ | ⟨hf, rfl⟩ | ⟨kind, op, hf, rfl⟩ | ⟨i, u, hf, hu, rfl⟩ := step_cases s t hstep
  · exact hinv
  · exact hinv.setExit hf
  · exact hinv.raise hf
  · exact hinv.retire hf hu

/-- Settles O17: from the sizes of a legal configuration, and the invariant of the state after the step. -/
theorem programCounterNeverWraps : Obligations.ProgramCounterNeverWraps := by
  intro s hinv hpc
  have hsize := (legal_sizes hinv.cfg).2.1
  refine ⟨by omega, fun t hstep => ?_⟩
  have ht := everyStepKeepsTheInvariant s t hinv hstep
  have hsize' := (legal_sizes ht.cfg).2.1
  obtain hjump | hmem := ht.pc <;> omega

end Sys2Proof
end

section
/-! What the instructions do not read (10_state.md R32, R34, R43): a machine whose sound timer, keys or
`COMPAT_MODE` are overridden does what the machine itself does, overridden alike. -/

namespace Sys2Proof.Machine

/-- New values for the three parts that few instructions read; `none` leaves a part as it is. -/
structure Override where
  st     : Option Byte
  keys   : Option (Vector Bool 16)
  compat : Option Bool

/-- The state with the parts of `o` put in. -/
def Override.on (o : Override) (s : State) : State :=
  { s with
    st := o.st.getD s.st, keys := o.keys.getD s.keys
    cfg := { s.cfg with compatMode := o.compat.getD s.cfg.compatMode } }

/-- The instruction uses none of the overridden parts: `FX18` writes the sound timer, three instructions read the
keys (10_state.md R34), and two read `COMPAT_MODE` (R43). -/
def Override.Unused (o : Override) : Instr → Prop
  | .ldStVx _ => o.st = none
  | .skp _ | .sknp _ | .ldVxK _ => o.keys = none
  | .storeRegs _ | .loadRegs _ => o.compat = none
  | _ => True

/-- The answer with its next state changed. -/
def mapNext (f : State → State) : Result → Result
  | .next s => .next (f s)
  | .fault r => .fault r
  | .refused r => .refused r

/-! ### Memory under an override -/

/-- A configuration enters a read through the reset bytes alone. -/
theorem Memory.read_congr {c d : Config} (h : c.resetByte = d.resetByte) (m : Memory) (a : Nat) :
    Memory.read c m a = Memory.read d m a := by
  induction m with
  | nil => exact congrFun h a
  | cons cell rest ih => simp only [Memory.read, ih]

/-- A configuration enters a write through the reset bytes alone. -/
theorem Memory.write_congr {c d : Config} (h : c.resetByte = d.resetByte) (m : Memory) (a : Nat) (v : Byte) :
    Memory.write c m a v = Memory.write d m a v := by
  induction m with
  | nil => simp only [Memory.write, h]
  | cons cell rest ih => simp only [Memory.write, ih, h]

namespace Override

variable (o : Override) (s : State)

@[simp] theorem on_reg (r : Reg) : (o.on s).reg r = s.reg r := rfl
@[simp] theorem on_stack : (o.on s).stack = s.stack := rfl
@[simp] theorem on_stackFull : (o.on s).stackFull = s.stackFull := rfl
@[simp] theorem on_keySelect : (o.on s).cfg.keySelect = s.cfg.keySelect := rfl
@[simp] theorem on_keyIndexPolicy : (o.on s).cfg.keyIndexPolicy = s.cfg.keyIndexPolicy := rfl
@[simp] theorem on_fontIndexPolicy : (o.on s).cfg.fontIndexPolicy = s.cfg.fontIndexPolicy := rfl

theorem on_memRead (a : Nat) : (o.on s).memRead a = s.memRead a :=
  Memory.read_congr (c := (o.on s).cfg) (d := s.cfg) rfl s.mem _

theorem on_memWrite (a : Nat) (b : Byte) : (o.on s).memWrite a b = o.on (s.memWrite a b) :=
  congrArg (fun m => { o.on s with mem := m })
    (Memory.write_congr (c := (o.on s).cfg) (d := s.cfg) rfl s.mem (a % s.cfg.memSize) b)

theorem on_memWriteAll (a : Nat) (bs : List Byte) :
    (o.on s).memWriteAll a bs = o.on (s.memWriteAll a bs) := by
  induction bs generalizing s a with
  | nil => rfl
  | cons b bs ih => rw [State.memWriteAll, on_memWrite, ih, State.memWriteAll]

theorem on_loadRegsFrom (a : Nat) (rs : List Reg) :
    (o.on s).loadRegsFrom a rs = o.on (s.loadRegsFrom a rs) := by
  induction rs generalizing s with
  | nil => rfl
  | cons r rs ih => rw [State.loadRegsFrom, on_memRead]; exact ih (s.setReg r (s.memRead (a + r.val)))

theorem on_spriteRows (k : Nat) : (o.on s).spriteRows k = s.spriteRows k :=
  List.map_congr_left fun r _ => o.on_memRead s (s.i.toNat + r)

/-! ### Steps under an override -/

/-- The tests before `Execute` read none of the overridden parts. -/
theorem fetch_on : fetch (o.on s) = fetch s := by
  have hword : (o.on s).fetchWord = s.fetchWord := congrArg₂ wordOfBytes (o.on_memRead s _) (o.on_memRead s _)
  unfold fetch
  rw [hword]
  rfl

theorem retire_on (i : Instr) : retire i (o.on s) = o.on (retire i s) := by
  unfold retire
  simp only [apply_ite o.on]
  rfl

/-- The tests for a key see the same keys, and the draw they may make is the same. -/
theorem on_firstPressed (hkeys : o.keys = none) :
    (o.on s).firstPressed = s.firstPressed.map fun p => (p.1, o.on p.2) := by
  have hpressed : (o.on s).pressedKeys = s.pressedKeys := by
    simp [State.pressedKeys, State.key, on, hkeys]
  unfold State.firstPressed
  rw [hpressed, on_keySelect]
  cases s.pressedKeys with
  | nil => rfl
  | cons k ks => cases s.cfg.keySelect <;> rfl

theorem on_key (hkeys : o.keys = none) (k : Fin 16) : (o.on s).key k = s.key k := by
  simp [State.key, on, hkeys]

theorem on_compatAdvanceI (hcompat : o.compat = none) (x : Reg) :
    (o.on s).compatAdvanceI x = o.on (s.compatAdvanceI x) := by
  simp only [State.compatAdvanceI_eq, on, hcompat, Option.getD_none]

/-- Every instruction that uses none of the overridden parts does the same under the override. -/
theorem exec_on (i : Instr) (hunused : o.Unused i) : exec i (o.on s) = mapNext o.on (exec i s) := by
  cases i with
  | ret =>
    simp only [exec, execRet, on_stack]
    cases s.stack <;> rfl
  | call k =>
    simp only [exec, execCall]
    rw [on_stackFull]
    cases s.stackFull <;> rfl
  | skp x | sknp x =>
    simp only [exec, execSkp, execSknp, on_key o s hunused, on_keyIndexPolicy, on_reg]
    cases keyIndex s.cfg.keyIndexPolicy (s.reg x) <;> rfl
  | ldF x =>
    simp only [exec, execLdF, on_fontIndexPolicy, on_reg]
    cases charAddress s.cfg.fontIndexPolicy (s.reg x) <;> rfl
  | ldVxK x =>
    simp only [exec, execLdVxK, on_firstPressed o s hunused]
    cases s.firstPressed <;> rfl
  | drw x y k =>
    simp only [exec, execDrw, on_spriteRows]
    rfl
  | ldB x => exact congrArg Host.Outcome.next (o.on_memWriteAll s _ _)
  | storeRegs x =>
    simp only [exec, execStoreRegs, on_memWriteAll, on_compatAdvanceI o _ hunused]
    rfl
  | loadRegs x =>
    simp only [exec, execLoadRegs, on_loadRegsFrom, on_compatAdvanceI o _ hunused]
    rfl
  | ldStVx x =>
    obtain ⟨st, keys, compat⟩ := o
    cases hunused
    rfl
  | _ => rfl

/-- A run to a next state, under the override. -/
theorem exec_on_next {s t : State} {i : Instr} (hunused : o.Unused i) (h : exec i s = .next t) :
    exec i (o.on s) = .next (o.on t) := by
  rw [o.exec_on s i hunused, h]
  rfl

/-- A step under the override, where the instruction it runs uses none of the overridden parts. -/
theorem step_on_next {s t : State} (hunused : ∀ i, fetch s = .runs i → o.Unused i) (h : step s = .next t) :
    step (o.on s) = .next (o.on t) := by
  have hfetch := o.fetch_on s
  obtain ⟨hf, rfl⟩ | ⟨hf, rfl⟩ | ⟨kind, op, hf, rfl⟩ | ⟨i, u, hf, hu, rfl⟩ := step_cases s t h
  · simp only [step, hfetch, hf]
  · simp only [step, hfetch, hf]; rfl
  · simp only [step, hfetch, hf]; rfl
  · rw [step_runs _ _ i (hfetch.trans hf) (o.exec_on_next (hunused i hf) hu), retire_on]

end Override
end Sys2Proof.Machine

namespace Sys2Proof
open Sys2Proof.Machine

/-- Settles O20: `FX18` overwrites the timer it is given, and every other step keeps an override of it. -/
theorem noInstructionReadsTheSoundTimer : Obligations.NoInstructionReadsTheSoundTimer := by
  intro s t b hstep
  let o : Override := ⟨some b, none, none⟩
  have hfetch : fetch { s with st := b } = fetch s := o.fetch_on s
  constructor
  · rintro ⟨x, hx⟩
    have hexec : exec (.ldStVx x) { s with st := b } = exec (.ldStVx x) s := rfl
    rw [← hstep]
    simp only [step, hfetch, hx, hexec]
  · intro hne
    refine o.step_on_next (fun i hi => ?_) hstep
    cases i with
    | ldStVx x => exact absurd ⟨x, hi⟩ hne
    | skp _ | sknp _ | ldVxK _ | storeRegs _ | loadRegs _ => exact rfl
    | _ => trivial

/-- Settles O21: an override of the keys. -/
theorem keysAreReadByThreeInstructionsOnly : Obligations.KeysAreReadByThreeInstructionsOnly := by
  intro s t keys i hne h
  refine Override.exec_on_next ⟨none, some keys, none⟩ ?_ h
  cases i with
  | skp x => exact absurd rfl (hne x).1
  | sknp x => exact absurd rfl (hne x).2.1
  | ldVxK x => exact absurd rfl (hne x).2.2
  | ldStVx _ | storeRegs _ | loadRegs _ => exact rfl
  | _ => trivial

/-- Settles O22: an override of `COMPAT_MODE`. -/
theorem compatModeIsReadByTwoInstructionsOnly : Obligations.CompatModeIsReadByTwoInstructionsOnly := by
  intro s t mode i hne h
  refine Override.exec_on_next ⟨none, none, some mode⟩ ?_ h
  cases i with
  | storeRegs x => exact absurd rfl (hne x).1
  | loadRegs x => exact absurd rfl (hne x).2
  | ldStVx _ | skp _ | sknp _ | ldVxK _ => exact rfl
  | _ => trivial

end Sys2Proof
end

section
/-! What construction and `RESET` leave (10_state.md R46; 70_reset_and_hazards.md R310, R311). -/

namespace Sys2Proof
open Sys2Proof.Machine

/-- The reset values hold whatever the keys and the count of draws are. -/
theorem atResetValues_constructed {c : Config} (h : c.legal = true) (keys : Vector Bool 16) (draws : Nat) :
    AtResetValues c { State.constructed c with keys := keys, draws := draws } := by
  obtain ⟨hlow, hhigh, horigin⟩ := legal_sizes h
  have hread : ∀ a < c.memSize, (State.constructed c).memRead a = c.resetByte a := fun a ha =>
    congrArg c.resetByte (Nat.mod_eq_of_lt ha)
  exact {
    cfg := rfl
    regs := fun r => by simp [State.reg, State.constructed]
    i := rfl
    pc := Nat.mod_eq_of_lt (by omega)
    stack := rfl
    dt := rfl
    st := rfl
    font := fun a ha => (hread a (by omega)).trans (dif_pos ha)
    rest := fun a ha hlt => (hread a hlt).trans (dif_neg (by omega))
    screen := fun r k => by simp [State.constructed, Screen.pixel, Screen.blank]
    block := rfl
    exit := rfl
    fault := rfl }

theorem constructed_key (c : Config) (k : Fin 16) : (State.constructed c).key k = false := by
  simp [State.key, State.constructed]

/-- Settles O52: the same reset values for construction, the reset machine and `RESET`. -/
theorem resetLeavesTheResetValues : Obligations.ResetLeavesTheResetValues := by
  refine ⟨fun c hc => ⟨atResetValues_constructed hc _ _, constructed_key c⟩, ?_, fun s hs => ?_⟩
  · exact ⟨atResetValues_constructed (by decide) _ _, rfl, constructed_key _⟩
  · exact ⟨s.afterReset, rfl, atResetValues_constructed hs s.keys s.draws, rfl, rfl⟩

end Sys2Proof
end

section
/-! Memory and the fetch (20_memory.md R51, R53, R65): the word at `PC` by its bytes, and a store that the next
fetch sees. -/

namespace Sys2Proof.Machine

/-! ### The fetched word -/

/-- The value of the word at `PC`, the byte at the lower address the more significant (20_memory.md R53, D1). -/
theorem State.fetchWord_toNat (s : State) :
    s.fetchWord.toNat = 256 * (s.memRead s.pc.toNat).toNat + (s.memRead (s.pc.toNat + 1)).toNat :=
  wordOfBytes_toNat _ _

/-! ### Stores -/

/-- Writing bytes leaves `PC`. -/
@[simp] theorem State.memWriteAll_pc (s : State) (a : Nat) (bs : List Byte) :
    (s.memWriteAll a bs).pc = s.pc := by rw [State.memWriteAll_eq]

/-- Writing bytes leaves `Block`. -/
@[simp] theorem State.memWriteAll_block (s : State) (a : Nat) (bs : List Byte) :
    (s.memWriteAll a bs).block = s.block := by rw [State.memWriteAll_eq]

/-- Writing bytes leaves the fault latch. -/
@[simp] theorem State.memWriteAll_fault (s : State) (a : Nat) (bs : List Byte) :
    (s.memWriteAll a bs).fault = s.fault := by rw [State.memWriteAll_eq]

/-- After bytes are stored from `I` on, an address inside memory reads as `ByteAfterStore` says (20_memory.md
R51). -/
theorem State.memWriteAll_memRead_of_byteAfterStore {s : State} {bytes : List Byte} {a : Nat} {b : Byte}
    (hwf : Memory.wf s.cfg s.mem = true) (hlen : bytes.length ≤ s.cfg.memSize) (ha : a < s.cfg.memSize)
    (h : ByteAfterStore s bytes a b) : (s.memWriteAll s.i.toNat bytes).memRead a = b := by
  obtain ⟨hstored, hkept⟩ := h
  by_cases hreach : ∃ j, ∃ _ : j < bytes.length, s.dataAddr j = a
  · obtain ⟨j, hj, rfl⟩ := hreach
    have hmod := (s.memWriteAll s.i.toNat bytes).memRead_mod (s.i.toNat + j)
    rw [State.memWriteAll_cfg] at hmod
    rw [hstored j hj rfl, State.dataAddr, hmod]
    exact State.memWriteAll_read s s.i.toNat j bytes hwf hlen hj
  · have hout : ∀ j < bytes.length, s.dataAddr j ≠ a := fun j hj heq => hreach ⟨j, hj, heq⟩
    rw [hkept hout]
    refine State.memWriteAll_other s s.i.toNat a bytes hwf (by omega) fun j hj heq => hout j hj ?_
    rw [State.dataAddr, ← heq, Nat.mod_eq_of_lt ha]

/-! ### The instructions that store -/

/-- A list that holds `V0..Vx` in order is the list that `FX55` stores (44_index_memory.md R204). -/
theorem eq_map_reg_regsUpTo {s : State} {x : Reg} {bytes : List Byte} (hlen : bytes.length = x.val + 1)
    (hbytes : ∀ r : Reg, r ≤ x → bytes[r.val]? = some (s.reg r)) : bytes = (regsUpTo x).map s.reg := by
  refine List.ext_getElem (by simp [hlen, regsUpTo_length]) fun j hj hj' => ?_
  have hjx : j < (regsUpTo x).length := by simpa using hj'
  have hr := hbytes _ ((mem_regsUpTo x _).mp (List.getElem_mem hjx))
  rw [regsUpTo_getElem x j hjx, List.getElem?_eq_getElem hj] at hr
  simpa using hr

/-- The values of the bytes that `FX33` stores, each digit times 5 under `FONT_ADDRESS` (44_index_memory.md
R203). -/
theorem bcdBytes_map_toNat (mode : BcdMode) (v : Byte) (scale : Nat)
    (hscale : scale = if mode = .fontAddress then 5 else 1) :
    (bcdBytes mode v).map BitVec.toNat =
      [scale * (v.toNat / 100), scale * (v.toNat / 10 % 10), scale * (v.toNat % 10)] := by
  have hv : v.toNat < 256 := v.isLt
  subst hscale
  cases mode with
  | fontAddress => simp [bcdBytes, fontAddr]; omega
  | rawDigit => simp [bcdBytes]; omega

/-- An instruction that stores bytes writes them from `I` on, and changes nothing else but `I`. -/
theorem exec_of_storesBytes {s : State} {i : Instr} {bytes : List Byte} (h : StoresBytes s i bytes) :
    ∃ w, exec i s = .next ((s.memWriteAll s.i.toNat bytes).setI w) := by
  obtain ⟨x, rfl, hlen, hbytes⟩ | ⟨x, scale, rfl, hscale, hbytes⟩ := h
  · rw [eq_map_reg_regsUpTo hlen hbytes]
    exact ⟨_, congrArg Host.Outcome.next (State.compatAdvanceI_eq _ x)⟩
  · have hbcd : bytes = bcdBytes s.cfg.bcdMode (s.reg x) :=
      List.map_injective_iff.mpr (fun _ _ => BitVec.eq_of_toNat_eq)
        (hbytes.trans (bcdBytes_map_toNat _ _ _ hscale).symm)
    subst hbcd
    refine ⟨s.i, congrArg Host.Outcome.next ?_⟩
    rw [State.memWriteAll_eq]
    rfl

/-- At most sixteen bytes are stored, by an instruction that is not jump-style (40_execution_cycle.md R104). -/
theorem length_le_and_isJump_of_storesBytes {s : State} {i : Instr} {bytes : List Byte}
    (h : StoresBytes s i bytes) : bytes.length ≤ 16 ∧ isJump i = false := by
  obtain ⟨x, rfl, hlen, -⟩ | ⟨x, scale, rfl, -, hbytes⟩ := h
  · exact ⟨by omega, rfl⟩
  · have hlen : bytes.length = 3 := by simpa using congrArg List.length hbytes
    exact ⟨by omega, rfl⟩

end Sys2Proof.Machine

namespace Sys2Proof
open Sys2Proof.Machine

/-- Settles O9: the word is the one fetched, so that the instruction runs, and then along the cases of retiring. -/
theorem stepRunsTheDecodedInstruction : Obligations.StepRunsTheDecodedInstruction := by
  intro s t i op ⟨hexit, hfault⟩ hpc hop hdecode hexec
  have hword : op = s.fetchWord := BitVec.eq_of_toNat_eq (hop.trans s.fetchWord_toNat.symm)
  have hfetch : fetch s = .runs i := (fetch_runs_iff s i).mpr ⟨hfault, hexit, hpc, hword ▸ hdecode⟩
  rw [step_runs s t i hfetch hexec]
  constructor
  · rintro (hf | hj | hb)
    · rw [retire_faulted i t (Option.isSome_iff_ne_none.mpr hf)]
    · rw [retire_jump i t hj]
    · rw [retire_blocked i t hb]
  · intro hf hj hb
    rw [retire_advance i t hf hj hb]

/-- Settles O45: the step is the store and the advance, and the next word is read from the two bytes after it. -/
theorem storedWordIsFetchedNext : Obligations.StoredWordIsFetchedNext := by
  intro s i bytes first second hlegal hwf hfetch hblock hstores hroom hfirst hsecond
  obtain ⟨hlow, hhigh, -⟩ := legal_sizes hlegal
  obtain ⟨hlen, hjump⟩ := length_le_and_isJump_of_storesBytes hstores
  obtain ⟨w, hexec⟩ := exec_of_storesBytes hstores
  have hfault := ((fetch_runs_iff s i).mp hfetch).1
  have hstep := step_runs s _ i hfetch hexec
  rw [retire_advance i _ (by simpa using hfault) hjump (by simpa using hblock)] at hstep
  refine ⟨_, hstep, by simp, ?_⟩
  have hpc : (s.pc + 2).toNat = s.pc.toNat + 2 := by bv_omega
  have hread : ∀ {a b}, a < s.cfg.memSize → ByteAfterStore s bytes a b →
      (s.memWriteAll s.i.toNat bytes).memRead a = b :=
    State.memWriteAll_memRead_of_byteAfterStore hwf (by omega)
  simp only [State.fetchWord_toNat, State.setPc_pc, State.setPc_memRead, State.setI_pc, State.setI_memRead,
    State.memWriteAll_pc, hpc, hread (by omega) hfirst, hread hroom hsecond]

end Sys2Proof
end

section
/-! The encoding (30_encoding.md): formats as mask and match, the decoder by the one row that accepts a word, and
the encoder as the row's fixed digits written over the word. -/

namespace Sys2Proof

/-! ### Formats by mask and match (R72) -/

/-- A character accepts a nibble unless it is another digit. -/
theorem FormatChar.accepts_iff_digit (c : FormatChar) (n : Nibble) :
    c.accepts n = true ↔ ∀ d, c = .digit d → n = d := by
  cases c <;> simp [FormatChar.accepts]

theorem Format.accepts_iff_digits (f : Format) (op : Word) :
    f.accepts op = true ↔ (∀ d, f.c3 = .digit d → nib3 op = d) ∧ (∀ d, f.c2 = .digit d → nib2 op = d)
      ∧ (∀ d, f.c1 = .digit d → nib1 op = d) ∧ (∀ d, f.c0 = .digit d → nib0 op = d) := by
  simp only [Format.accepts, Bool.and_eq_true, FormatChar.accepts_iff_digit, and_assoc]

theorem Format.accepts_iff_mask (f : Format) (op : Word) : f.accepts op = true ↔ op &&& f.mask = f.pattern := by
  rw [← wordOfNibbles_nibs op]
  simp only [Format.mask, Format.pattern, wordOfNibbles_and, wordOfNibbles_inj, Format.accepts, Bool.and_eq_true,
    FormatChar.accepts_iff, nib3_wordOfNibbles, nib2_wordOfNibbles, nib1_wordOfNibbles, nib0_wordOfNibbles,
    and_assoc]

/-- Settles O7: digit by digit, and with `and` taken nibble by nibble. -/
theorem formatMatchesByMaskAndMatch : Obligations.FormatMatchesByMaskAndMatch := by
  refine ⟨fun f op => ⟨f.accepts_iff_digits op, f.accepts_iff_mask op⟩, fun _ => ⟨rfl, rfl⟩, fun _ => ⟨rfl, rfl⟩,
    fun c hc => ?_⟩
  cases c with
  | digit d => exact absurd rfl (hc d)
  | X | Y | N => exact ⟨rfl, rfl⟩

/-! ### The decoder by the rows that accept the word (R77, R79) -/

/-- No two rows agree on the positions that both of them fix. -/
theorem rows_patterns_differ :
    rows.Pairwise (fun r q => r.format.pattern &&& q.format.mask ≠ q.format.pattern &&& r.format.mask) := by
  decide

/-- Formats that accept one word agree on the positions that both of them fix. -/
theorem Format.patterns_agree {f g : Format} {op : Word} (hf : f.accepts op = true) (hg : g.accepts op = true) :
    f.pattern &&& g.mask = g.pattern &&& f.mask := by
  rw [← (f.accepts_iff_mask op).mp hf, ← (g.accepts_iff_mask op).mp hg, BitVec.and_assoc, BitVec.and_assoc,
    BitVec.and_comm f.mask]

theorem mem_matchingRows {r : Row} {op : Word} :
    r ∈ matchingRows op ↔ r ∈ rows ∧ r.format.accepts op = true := List.mem_filter

/-- At most one row accepts a word. -/
theorem matchingRows_cases (op : Word) : matchingRows op = [] ∨ ∃ r, matchingRows op = [r] := by
  match h : matchingRows op with
  | [] => exact .inl rfl
  | [r] => exact .inr ⟨r, rfl⟩
  | r :: q :: _ =>
    have hpair : (matchingRows op).Pairwise _ := rows_patterns_differ.filter _
    rw [h] at hpair
    have hdiffer := List.rel_of_pairwise_cons hpair List.mem_cons_self
    have haccepts {p} (hp : p ∈ matchingRows op) := (mem_matchingRows.mp hp).2
    exact absurd (Format.patterns_agree (haccepts (by simp [h])) (haccepts (by simp [h]))) hdiffer

/-- A word decodes to what a row that accepts it builds from it. -/
theorem decode_eq_ok_iff (op : Word) (i : Instr) :
    decode op = .ok i ↔ ∃ r ∈ rows, r.format.accepts op = true ∧ r.build op = i := by
  simp only [← and_assoc, ← mem_matchingRows]
  obtain h | ⟨r, h⟩ := matchingRows_cases op <;> simp [decode, h]

/-- A word is no instruction when no row accepts it. -/
theorem decode_eq_unknown_iff (op : Word) :
    decode op = .error .unknownInstruction ↔ ∀ r ∈ rows, r.format.accepts op = false := by
  have hnil : matchingRows op = [] ↔ ∀ r ∈ rows, r.format.accepts op = false := by
    simp [matchingRows, List.filter_eq_nil_iff]
  rw [← hnil]
  obtain h | ⟨r, h⟩ := matchingRows_cases op <;> simp [decode, h]

/-- Settles O5: no two rows agree on their fixed digits, so that at most one accepts a word. -/
theorem noWordMatchesTwoRows : Obligations.NoWordMatchesTwoRows := by
  intro op
  obtain h | ⟨r, h⟩ := matchingRows_cases op <;> simp [decode, h]

/-! ### Decoding what is encoded (R73, R74) -/

open Laws.TableRow in
/-- Every instruction has its row. -/
theorem tableRow (i : Instr) : Statement i :=
  match i with
  | .cls => cls | .ret => ret | .jp a => jp a | .call a => call a
  | .seImm x k => seImm x k | .sneImm x k => sneImm x k | .seReg x y => seReg x y | .sneReg x y => sneReg x y
  | .ldImm x k => ldImm x k | .addImm x k => addImm x k | .ldReg x y => ldReg x y
  | .orReg x y => orReg x y | .andReg x y => andReg x y | .xorReg x y => xorReg x y
  | .addReg x y => addReg x y | .subReg x y => subReg x y | .subn x y => subn x y
  | .shr x y => shr x y | .shl x y => shl x y
  | .ldI a => ldI a | .jpV0 a => jpV0 a | .rnd x k => rnd x k | .drw x y n => drw x y n
  | .skp x => skp x | .sknp x => sknp x | .ldVxDt x => ldVxDt x | .ldVxK x => ldVxK x
  | .ldDtVx x => ldDtVx x | .ldStVx x => ldStVx x | .addI x => addI x | .ldF x => ldF x | .ldB x => ldB x
  | .storeRegs x => storeRegs x | .loadRegs x => loadRegs x
  | .scd n => scd n | .scr => scr | .scl => scl | .low => low | .high => high

/-- Settles O3: the instruction's own row accepts its word, and no other row does. -/
theorem decodeOfEncodeIsIdentity : Obligations.DecodeOfEncodeIsIdentity :=
  fun i => (decode_eq_ok_iff (encode i) i).mpr (tableRow i)

/-! ### Encoding what is decoded (R80, R83) -/

/-- The nibble with the character's digit, if it has one, in its place. -/
def FormatChar.fill : FormatChar → Nibble → Nibble
  | .digit d, _ => d
  | .X, n => n
  | .Y, n => n
  | .N, n => n

/-- The word with the format's digits written over its nibbles. -/
def Format.fill (f : Format) (op : Word) : Word :=
  wordOfNibbles (f.c3.fill (nib3 op)) (f.c2.fill (nib2 op)) (f.c1.fill (nib1 op)) (f.c0.fill (nib0 op))

theorem FormatChar.fill_eq_self_iff (c : FormatChar) (n : Nibble) : c.fill n = n ↔ c.accepts n = true := by
  cases c with
  | digit d => simp [FormatChar.fill, FormatChar.accepts, eq_comm (a := d)]
  | X | Y | N => simp [FormatChar.fill, FormatChar.accepts]

/-- A format accepts the words that already have its digits. -/
theorem Format.fill_eq_self_iff (f : Format) (op : Word) : f.fill op = op ↔ f.accepts op = true := by
  conv_lhs => rhs; rw [← wordOfNibbles_nibs op]
  simp only [Format.fill, wordOfNibbles_inj, FormatChar.fill_eq_self_iff, Format.accepts, Bool.and_eq_true,
    and_assoc]

/-! The words of each form, with the operands taken from a word (R74). -/

section
variable (d : Nibble) (op : Word)

/-- A word without operands is the format's digits, whatever word it is read from. -/
theorem fixedWord_eq_fill {k : Word} {e f : Nibble} (h : k = wordOfNibbles 0 0 e f) :
    k = (Format.fixed e f).fill op := h

theorem wordNNN_eq_fill : wordNNN d (fieldNNN op) = (Format.nnn d).fill op := by
  simp [wordNNN_eq, fieldNNN, Format.fill, Format.nnn, FormatChar.fill, nib0, nib1, nib2]

theorem wordXNN_eq_fill : wordXNN d (fieldX op) (fieldNN op) = (Format.xnn d).fill op := by
  simp [wordXNN_eq, fieldX_eq, fieldNN, Format.fill, Format.xnn, FormatChar.fill, nib0, nib1]

theorem wordXef_eq_fill (k : Byte) :
    wordXNN d (fieldX op) k = (Format.x d (k.extractLsb' 4 4) (k.extractLsb' 0 4)).fill op :=
  wordXNN_eq d k (fieldX op)

end

/-- The encoder writes the digits of the row over the word that the operands come from. -/
theorem encode_build_eq_fill (op : Word) : ∀ r ∈ rows, encode (r.build op) = r.format.fill op := by
  have fixed {k e f} := fixedWord_eq_fill op (k := k) (e := e) (f := f)
  have nnn (d) := wordNNN_eq_fill d op
  have xnn (d) := wordXNN_eq_fill d op
  have xef (d k) := wordXef_eq_fill d op k
  have nil : ∀ r ∈ ([] : List Row), encode (r.build op) = r.format.fill op := by simp
  simp only [rows, rows1, rows2, rows3, rows4, List.forall_mem_append, List.forall_mem_cons]
  exact ⟨⟨⟨⟨fixed rfl, fixed rfl, nnn 1, nnn 2, xnn 3, xnn 4, rfl, xnn 6, xnn 7, nil⟩,
    ⟨rfl, rfl, rfl, rfl, rfl, rfl, rfl, rfl, rfl, rfl, nil⟩⟩,
    ⟨nnn 0xA, nnn 0xB, xnn 0xC, rfl, xef 0xE 0x9E, xef 0xE 0xA1, xef 0xF 0x07, xef 0xF 0x0A, xef 0xF 0x15,
      xef 0xF 0x18, xef 0xF 0x1E, xef 0xF 0x29, xef 0xF 0x33, xef 0xF 0x55, xef 0xF 0x65, nil⟩⟩,
    ⟨rfl, fixed rfl, fixed rfl, fixed rfl, fixed rfl, nil⟩⟩

/-- A row accepts a word when the encoder gives the word back from what the row builds. -/
theorem encode_build_eq_iff {r : Row} (hr : r ∈ rows) (op : Word) :
    encode (r.build op) = op ↔ r.format.accepts op = true := by
  rw [encode_build_eq_fill op r hr, Format.fill_eq_self_iff]

/-- Settles O4: the row that accepts the word already has its digits in it. -/
theorem encodeOfDecodeIsIdentity : Obligations.EncodeOfDecodeIsIdentity := by
  intro op i h
  obtain ⟨r, hr, haccepts, rfl⟩ := (decode_eq_ok_iff op i).mp h
  exact (encode_build_eq_iff hr op).mpr haccepts

/-- A word decodes to what a row builds from it exactly when it has the row's mask and match. -/
theorem rowIs_of_mem {r : Row} (hr : r ∈ rows) : RowIs r.format.mask r.format.pattern r.build := by
  intro op
  rw [← Format.accepts_iff_mask]
  exact ⟨fun h => (encode_build_eq_iff hr op).mp (encodeOfDecodeIsIdentity op _ h),
    fun h => (decode_eq_ok_iff op _).mpr ⟨r, hr, h, rfl⟩⟩

/-- Settles O2: row by row, in the table's order. -/
theorem opcodeTableDecodesByMaskAndMatch : Obligations.OpcodeTableDecodesByMaskAndMatch := by
  have row (j : Fin 39) : RowIs rows[j].format.mask rows[j].format.pattern rows[j].build :=
    rowIs_of_mem (List.getElem_mem _)
  exact ⟨row 0, row 1, row 2, row 3, row 4, row 5, row 6, row 7, row 8, row 9, row 10, row 11, row 12, row 13,
    row 14, row 15, row 16, row 17, row 18, row 19, row 20, row 21, row 22, row 23, row 24, row 25, row 26, row 27,
    row 28, row 29, row 30, row 31, row 32, row 33, row 34, row 35, row 36, row 37, row 38⟩

/-! ### The illegal words (R81) -/

section
variable (a b c d : Nibble) (k : Word)

/-- A word is told by its nibbles. -/
theorem wordOfNibbles_eq_iff : wordOfNibbles a b c d = k ↔
    a = k.extractLsb' 12 4 ∧ b = k.extractLsb' 8 4 ∧ c = k.extractLsb' 4 4 ∧ d = k.extractLsb' 0 4 := by
  conv_lhs => rw [← wordOfNibbles_nibs k]
  exact wordOfNibbles_inj a b c d

/-- `and` with a word, nibble by nibble. -/
theorem wordOfNibbles_and_word : wordOfNibbles a b c d &&& k =
    wordOfNibbles (a &&& k.extractLsb' 12 4) (b &&& k.extractLsb' 8 4) (c &&& k.extractLsb' 4 4)
      (d &&& k.extractLsb' 0 4) := by
  conv_lhs => rw [← wordOfNibbles_nibs k, wordOfNibbles_and]
  rfl

/-- A fixed position of a mask keeps the nibble. -/
theorem nibble_and_F : a &&& 0xF#4 = a := BitVec.and_allOnes

theorem toNat_append_nibble {w : Nat} (v : BitVec w) (n : Nibble) : (v ++ n).toNat = 16 * v.toNat + n.toNat := by
  rw [BitVec.toNat_append, ← Nat.shiftLeft_add_eq_or_of_lt n.isLt, Nat.shiftLeft_eq, Nat.mul_comm]

theorem wordOfNibbles_toNat :
    (wordOfNibbles a b c d).toNat = 16 * (16 * (16 * a.toNat + b.toNat) + c.toNat) + d.toNat := by
  simp only [wordOfNibbles, toNat_append_nibble]

/-- The words below `0x1000` are those whose first nibble is 0. -/
theorem wordOfNibbles_le_0FFF : (wordOfNibbles a b c d).toNat ≤ 0x0FFF ↔ a = 0 := by
  rw [wordOfNibbles_toNat]
  bv_omega

/-- The words of `00CN`. -/
theorem wordOfNibbles_00C0_to_00CF :
    0x00C0 ≤ (wordOfNibbles a b c d).toNat ∧ (wordOfNibbles a b c d).toNat ≤ 0x00CF
      ↔ a = 0 ∧ b = 0 ∧ c = 0xC := by
  rw [wordOfNibbles_toNat]
  bv_omega

end

/-- The list of R81 by nibbles. -/
theorem illegalWord_iff_nibbles (op : Word) : illegalWord op ↔
    (nib3 op = 0 ∧ ¬ (nib2 op = 0 ∧ nib1 op = 0xC)
      ∧ ¬ (nib2 op = 0 ∧ nib1 op = 0xE ∧ nib0 op = 0) ∧ ¬ (nib2 op = 0 ∧ nib1 op = 0xE ∧ nib0 op = 0xE)
      ∧ ¬ (nib2 op = 0 ∧ nib1 op = 0xF ∧ nib0 op = 0xB) ∧ ¬ (nib2 op = 0 ∧ nib1 op = 0xF ∧ nib0 op = 0xC)
      ∧ ¬ (nib2 op = 0 ∧ nib1 op = 0xF ∧ nib0 op = 0xE) ∧ ¬ (nib2 op = 0 ∧ nib1 op = 0xF ∧ nib0 op = 0xF))
    ∨ (nib3 op = 5 ∧ nib0 op ≠ 0)
    ∨ (nib3 op = 8 ∧ (nib0 op = 8 ∨ nib0 op = 9 ∨ nib0 op = 0xA ∨ nib0 op = 0xB ∨ nib0 op = 0xC ∨ nib0 op = 0xD
      ∨ nib0 op = 0xF))
    ∨ (nib3 op = 9 ∧ nib0 op ≠ 0)
    ∨ (nib3 op = 0xE ∧ ¬ (nib1 op = 9 ∧ nib0 op = 0xE) ∧ ¬ (nib1 op = 0xA ∧ nib0 op = 1))
    ∨ (nib3 op = 0xF ∧ ¬ (nib1 op = 0 ∧ nib0 op = 7) ∧ ¬ (nib1 op = 0 ∧ nib0 op = 0xA)
      ∧ ¬ (nib1 op = 1 ∧ nib0 op = 5) ∧ ¬ (nib1 op = 1 ∧ nib0 op = 8) ∧ ¬ (nib1 op = 1 ∧ nib0 op = 0xE)
      ∧ ¬ (nib1 op = 2 ∧ nib0 op = 9) ∧ ¬ (nib1 op = 3 ∧ nib0 op = 3) ∧ ¬ (nib1 op = 5 ∧ nib0 op = 5)
      ∧ ¬ (nib1 op = 6 ∧ nib0 op = 5)) := by
  conv_lhs => rw [← wordOfNibbles_nibs op]
  simp only [illegalWord, wordOfNibbles_le_0FFF, wordOfNibbles_00C0_to_00CF]
  refine or_congr (and_congr_right fun h0 => ?_) ?_
  · simp [h0, wordOfNibbles_eq_iff]
  · simp [wordOfNibbles_eq_iff, wordOfNibbles_and_word, nibble_and_F]

/-- Settles O6: by the first nibble. Under 8 the list names the last nibbles that no row has; under each other
digit both sides say the same of the nibbles that follow. -/
theorem illegalWordsAreExactlyThoseListed : Obligations.IllegalWordsAreExactlyThoseListed := by
  intro op
  rw [decode_eq_unknown_iff, illegalWord_iff_nibbles]
  simp only [rows, rows1, rows2, rows3, rows4, List.forall_mem_append, List.forall_mem_cons, List.not_mem_nil,
    false_imp_iff, imp_true_iff, Format.accepts, Format.nnn, Format.xnn, Format.x, Format.xy, Format.fixed,
    FormatChar.accepts]
  generalize nib3 op = a, nib2 op = b, nib1 op = c, nib0 op = d
  by_cases h0 : a = 0
  · simp [h0, and_assoc, and_left_comm]
  by_cases h8 : a = 8
  · obtain ⟨⟨m, hm⟩⟩ := d
    interval_cases m <;> simp [h8]
  · obtain ⟨⟨n, hn⟩⟩ := a
    interval_cases n <;> simp_all

end Sys2Proof
end

section
/-! The step around `Execute` (40_execution_cycle.md): what each outcome of the tests makes of a step, which
faults an instruction latches, and what is final once a run has ended. -/

namespace Sys2Proof.Machine

/-! ### Steps that run no instruction -/

theorem step_halted {s : State} (h : fetch s = .halted) : step s = .next s := by
  simp [step, h]

theorem step_exits {s : State} (h : fetch s = .exits) : step s = .next (s.setExit 0) := by
  simp [step, h]

theorem step_faults {s : State} {kind : Fault} {op : Word} (h : fetch s = .faults kind op) :
    step s = .next (s.raise kind op) := by
  simp [step, h]

/-- With one byte left before the end of memory the fetch straddles it (20_memory.md R54). -/
theorem fetch_straddle {s : State} (hrun : Running s) (hpc : s.pc.toNat + 1 = s.cfg.memSize) :
    fetch s = .faults .fetchStraddle 0 := by
  obtain ⟨hexit, hfault⟩ := hrun
  unfold fetch
  rw [if_neg (by simp [hfault]), if_neg (by simp [hexit]), if_neg (by omega), if_pos hpc]

/-- A word other than the sentinel that does not decode faults with the decoder's error
(40_execution_cycle.md R108). -/
theorem fetch_undecodable {s : State} {e : DecodeError} (hrun : Running s)
    (hpc : s.pc.toNat + 1 < s.cfg.memSize) (hword : s.fetchWord ≠ 0) (hdecode : decode s.fetchWord = .error e) :
    fetch s = .faults (decodeFault e) s.fetchWord := by
  obtain ⟨hexit, hfault⟩ := hrun
  unfold fetch
  rw [if_neg (by simp [hfault]), if_neg (by simp [hexit]), if_neg (by omega), if_neg (by omega), if_neg hword,
    hdecode]

/-! ### The faults that instructions latch (60_exceptions.md R271) -/

/-- The faults that an instruction may latch in `s`, each under its condition; `exec_fault_cases` says that an
instruction latches no other. -/
inductive Raises (s : State) : Instr → Fault → Prop
  | underflow : s.stack = [] → Raises s .ret .stackUnderflow
  | overflow {k : Addr12} : s.stackFull = true → Raises s (.call k) .stackOverflow
  | font {x : Reg} : s.cfg.fontIndexPolicy = .fault → 15 < (s.reg x).toNat → Raises s (.ldF x) .fontIndex
  | key {i : Instr} {x : Reg} : i = .skp x ∨ i = .sknp x → s.cfg.keyIndexPolicy = .fault →
      15 < (s.reg x).toNat → Raises s i .keyIndex
  | declared {i : Instr} : declaredWord (encode i) → Raises s i .notImplemented

theorem declaredWord_encode_scd (k : Nibble) : declaredWord (encode (.scd k)) :=
  .inl ((wordOfNibbles_00C0_to_00CF 0 0 0xC k).mpr ⟨rfl, rfl, rfl⟩)

/-- An instruction leaves the fault latch, or latches a fault with its own word and changes nothing else. -/
theorem exec_fault_cases {s t : State} {i : Instr} (h : exec i s = .next t) :
    t.fault = s.fault ∨ ∃ kind, Raises s i kind ∧ t = s.raise kind (encode i) := by
  cases i with
  | ret =>
    obtain ⟨hs, rfl⟩ | ⟨top, rest, -, rfl⟩ := exec_ret_cases h
    · exact .inr ⟨_, .underflow hs, rfl⟩
    · exact .inl rfl
  | call k =>
    obtain ⟨hfull, rfl⟩ | ⟨-, rfl⟩ := exec_call_cases h
    · exact .inr ⟨_, .overflow hfull, rfl⟩
    · exact .inl rfl
  | skp x | sknp x =>
    simp only [exec, execSkp, execSknp] at h
    split at h <;> cases h
    · exact .inl rfl
    · obtain ⟨rfl, hpolicy, hlarge⟩ := keyIndex_error _ _ _ ‹_›
      exact .inr ⟨_, .key (by simp) hpolicy hlarge, rfl⟩
  | ldF x =>
    simp only [exec, execLdF] at h
    split at h <;> cases h
    · exact .inl rfl
    · obtain ⟨rfl, hpolicy, hlarge⟩ := charAddress_error _ _ _ ‹_›
      exact .inr ⟨_, .font hpolicy hlarge, rfl⟩
  | scd k => cases h; exact .inr ⟨_, .declared (declaredWord_encode_scd k), rfl⟩
  | scr | scl | low | high => cases h; exact .inr ⟨_, .declared (by simp [declaredWord, encode]), rfl⟩
  | ldVxK x =>
    obtain rfl | ⟨drawn, b, rfl | rfl, rfl⟩ := exec_ldVxK_cases h <;> exact .inl rfl
  | ldB x => cases h; exact .inl (by simp)
  | storeRegs x => cases h; exact .inl (by simp [State.compatAdvanceI_eq])
  | loadRegs x => cases h; exact .inl (by rw [State.compatAdvanceI_eq, State.loadRegsFrom_eq])
  | _ => cases h; exact .inl rfl

theorem retire_fault (i : Instr) (t : State) : (retire i t).fault = t.fault := by
  rw [retire_eq_setPc, State.setPc_fault]

theorem stackFull_iff (s : State) :
    s.stackFull = true ↔ ∃ n, s.cfg.stackDepth = .bounded n ∧ n ≤ s.stack.length := by
  unfold State.stackFull
  cases s.cfg.stackDepth <;> simp

theorem encode_call_and_mask (k : Addr12) : encode (.call k) &&& 0xF000 = 0x2000 := by
  simp [encode, wordNNN_eq, wordOfNibbles_and_word, wordOfNibbles_eq_iff]

/-- A word of a format `dXef` under the mask of its fixed digits (30_encoding.md R72). -/
theorem wordXNN_and_F0FF (d : Nibble) (x : Reg) (k : Byte) : wordXNN d x k &&& 0xF0FF = wordXNN d 0 k := by
  simp only [wordXNN_eq, wordOfNibbles_and_word, wordOfNibbles_inj]
  exact ⟨nibble_and_F d, BitVec.and_zero, nibble_and_F _, nibble_and_F _⟩

theorem fieldX_wordXNN (d : Nibble) (x : Reg) (k : Byte) : fieldX (wordXNN d x k) = x := by
  simp [fieldX_eq]

/-! ### After the end of a run (40_execution_cycle.md R109) -/

theorem step_ended {s : State} (h : Ended s) : step s = .next s :=
  step_halted ((fetch_halted_iff s).mpr h.symm)

/-- The parts that the host's operations change even after the end of a run. -/
def State.setTimersAndKeys (s : State) (dt st : Byte) (keys : Vector Bool 16) : State :=
  { s with dt := dt, st := st, keys := keys }

/-- A key event sets a key or is refused (60_exceptions.md R284). -/
theorem keyEvent_cases (k : Nat) (down : Bool) (s : State) :
    (∃ j, keyEvent k down s = .next (s.setKey j down)) ∨ keyEvent k down s = .refused (.noSuchKey k) := by
  unfold keyEvent
  split
  · exact .inl ⟨_, rfl⟩
  · exact .inr rfl

/-- After the end of a run one host operation other than `RESET` and `LOAD` changes the timers and keys alone. -/
theorem after_ended {s : State} {op : HostOp} (h : Ended s) (hreset : op ≠ .reset)
    (hload : ∀ image origin, op ≠ .load image origin) :
    ∃ dt st keys, s.after op = s.setTimersAndKeys dt st keys := by
  cases op with
  | step =>
    refine ⟨s.dt, s.st, s.keys, ?_⟩
    simp only [State.after, perform, step_ended h]
    rfl
  | tick | decDt | decSt => exact ⟨_, _, _, rfl⟩
  | keyDown k | keyUp k =>
    simp only [State.after, perform]
    obtain ⟨j, hj⟩ | hj := keyEvent_cases k _ s <;> rw [hj] <;> exact ⟨_, _, _, rfl⟩
  | reset => exact absurd rfl hreset
  | load image origin => exact absurd rfl (hload image origin)

theorem afterAll_ended {s : State} {ops : List HostOp} (h : Ended s)
    (hops : ∀ op ∈ ops, op ≠ .reset ∧ ∀ image origin, op ≠ .load image origin) :
    ∃ dt st keys, s.afterAll ops = s.setTimersAndKeys dt st keys := by
  induction ops generalizing s with
  | nil => exact ⟨_, _, _, rfl⟩
  | cons op ops ih =>
    obtain ⟨⟨hreset, hload⟩, hrest⟩ := List.forall_mem_cons.mp hops
    obtain ⟨dt, st, keys, hone⟩ := after_ended h hreset hload
    have hended : Ended (s.after op) := by rw [hone]; exact h
    obtain ⟨dt', st', keys', hall⟩ := ih hended hrest
    refine ⟨dt', st', keys', ?_⟩
    rw [State.afterAll, hall, hone]
    rfl

end Sys2Proof.Machine

namespace Sys2Proof
open Sys2Proof.Machine

/-- Settles O10: each clause is one outcome of the tests. -/
theorem stepTestsComeInOrder : Obligations.StepTestsComeInOrder := by
  intro s
  refine ⟨fun h => ?_, fun ⟨hexit, hfault⟩ hpc => ?_, fun hrun hpc => ?_, fun ⟨hexit, hfault⟩ hpc hword => ?_,
    fun hrun hpc hword hillegal => ?_⟩
  · exact step_ended (by simpa [Ended, Option.isSome_iff_ne_none] using h.symm)
  · exact step_exits ((fetch_exits_iff s).mpr ⟨hfault, hexit, .inl hpc⟩)
  · exact step_faults (fetch_straddle hrun hpc)
  · exact step_exits ((fetch_exits_iff s).mpr ⟨hfault, hexit, .inr ⟨hpc, hword⟩⟩)
  · exact step_faults (fetch_undecodable hrun hpc hword ((illegalWordsAreExactlyThoseListed _).mpr hillegal))

/-- Settles O12: the timers and keys are all that the operations have set. -/
theorem anEndedRunStaysEnded : Obligations.AnEndedRunStaysEnded := by
  intro s ops hended hops p hp
  obtain ⟨dt, st, keys, heq⟩ := afterAll_ended hended hops
  rw [heq]
  cases p with
  | dt | st | keys => simp at hp
  | byte a => exact fun _ => rfl
  | _ => rfl

/-- A fault before `Execute` is a straddling fetch or an unknown word: no word is ambiguous (30_encoding.md
R79). -/
theorem fetch_faults_cases {s : State} {kind : Fault} {op : Word} (h : fetch s = .faults kind op) :
    (kind = .fetchStraddle ∧ op = 0 ∧ s.pc.toNat + 1 = s.cfg.memSize)
      ∨ (op = s.fetchWord ∧ s.pc.toNat + 1 < s.cfg.memSize ∧ kind = .unknownInstruction ∧ illegalWord op
        ∧ op ≠ 0) := by
  obtain ⟨-, -, hstraddle | ⟨hpc, rfl, hword, e, hdecode, rfl⟩⟩ := fetch_faults s kind op h
  · exact .inl hstraddle
  · cases e with
    | unknownInstruction =>
      exact .inr ⟨rfl, hpc, rfl, (illegalWordsAreExactlyThoseListed _).mp hdecode, hword⟩
    | ambiguousOpcode => exact absurd hdecode (noWordMatchesTwoRows _).2

/-- Settles O13: a fault is latched by the tests before `Execute` or by an instruction, whose word is the one
fetched. -/
theorem aFaultIsPreciseAndListed : Obligations.AFaultIsPreciseAndListed := by
  intro s t f ⟨hexit, hnone⟩ hstep hf
  obtain ⟨-, rfl⟩ | ⟨-, rfl⟩ | ⟨kind, op, hfetch, rfl⟩ | ⟨i, u, hfetch, hexec, rfl⟩ := step_cases s t hstep
  · simp [hnone] at hf
  · simp [hnone] at hf
  · obtain rfl : ⟨kind, s.pc, op⟩ = f := by simpa using hf
    refine ⟨rfl, rfl, ?_⟩
    obtain hstraddle | ⟨hop, hpc, hunknown⟩ := fetch_faults_cases hfetch
    · exact .inl hstraddle
    · exact .inr ⟨hop, hpc, .inl hunknown⟩
  · obtain ⟨-, -, hpc, hdecode⟩ := (fetch_runs_iff s i).mp hfetch
    rw [retire_fault] at hf
    obtain hkept | ⟨kind, hraises, rfl⟩ := exec_fault_cases hexec
    · simp [hkept, hnone] at hf
    · obtain rfl : ⟨kind, s.pc, encode i⟩ = f := by simpa using hf
      refine ⟨retire_faulted i _ rfl, rfl, .inr ⟨encodeOfDecodeIsIdentity _ i hdecode, hpc, .inr ?_⟩⟩
      cases hraises with
      | declared hword => exact .inl ⟨rfl, hword⟩
      | underflow hempty => exact .inr (.inl ⟨rfl, rfl, hempty⟩)
      | overflow hfull =>
        exact .inr (.inr (.inl ⟨rfl, encode_call_and_mask _, (stackFull_iff s).mp hfull⟩))
      | font hpolicy hlarge =>
        refine .inr (.inr (.inr (.inl ⟨rfl, wordXNN_and_F0FF 0xF _ 0x29, hpolicy, ?_⟩)))
        rwa [encode, fieldX_wordXNN]
      | key hi hpolicy hlarge =>
        refine .inr (.inr (.inr (.inr ⟨rfl, ?_, hpolicy, ?_⟩)))
        · obtain rfl | rfl := hi
          · exact .inl (wordXNN_and_F0FF 0xE _ 0x9E)
          · exact .inr (wordXNN_and_F0FF 0xE _ 0xA1)
        · obtain rfl | rfl := hi <;> rwa [encode, fieldX_wordXNN]

/-- Different instructions have different words, since each decodes back from its own. -/
theorem encode_injective : Function.Injective encode := fun i j h => by
  simpa only [decodeOfEncodeIsIdentity _, Except.ok.injEq] using congrArg decode h

/-- Settles O8: by the first nibble of each instruction's word, and `RET` by its whole word. -/
theorem jumpStyleInstructionsByWord : Obligations.JumpStyleInstructionsByWord := by
  intro i
  have hret : encode i = 0x00EE ↔ i = .ret := encode_injective.eq_iff (b := .ret)
  rw [hret]
  cases i with
  | ret => simp [isJump]
  | cls | scr | scl | low | high => simp [isJump, encode, nib3]
  | _ => simp [isJump, encode, wordXYN_eq]

end Sys2Proof
end

section
/-! The display instructions (41_display.md): the parts they change, what the drawn state is pixel by pixel, and a
second draw of the same sprite. -/

namespace Sys2Proof
open Sys2Proof.Machine

/-! ### The parts that the display instructions change, whatever the configuration and memory are -/

namespace OnlyChanges

variable {s t : State} {allowed : Part → Prop}

theorem refl (s : State) : OnlyChanges s s allowed := fun p _ => by
  cases p with
  | byte a => exact fun _ => rfl
  | _ => rfl

theorem setScreen (h : OnlyChanges s t allowed) {g : Screen} (hg : allowed .screen) :
    OnlyChanges s (t.setScreen g) allowed := fun p hp => by
  cases p with
  | screen => exact absurd hg hp
  | _ => exact h _ hp

theorem setReg (h : OnlyChanges s t allowed) {r : Reg} {b : Byte} (hr : allowed (.reg r)) :
    OnlyChanges s (t.setReg r b) allowed := fun p hp => by
  cases p with
  | reg q =>
    have hq : q ≠ r := fun heq => hp (heq ▸ hr)
    have hkept : t.reg q = s.reg q := h _ hp
    rw [Same, State.setReg_reg, if_neg hq, hkept]
  | _ => exact h _ hp

theorem raise (h : OnlyChanges s t allowed) {kind : Fault} {op : Word} (hf : allowed .fault) :
    OnlyChanges s (t.raise kind op) allowed := fun p hp => by
  cases p with
  | fault => exact absurd hf hp
  | _ => exact h _ hp

end OnlyChanges
end Sys2Proof

namespace Sys2Proof.Machine

/-! ### The declared instructions (R125 to R129) -/

theorem encode_scd (k : Nibble) : encode (.scd k) = 0x00C0 + k.setWidth 16 := by
  apply BitVec.eq_of_toNat_eq
  rw [encode, wordOfNibbles_toNat]
  bv_omega

/-- An instruction that always latches NOT_IMPLEMENTED, its word written out. -/
theorem exec_declared {s : State} {i : Instr} {op : Word}
    (h : exec i s = .next (s.raise .notImplemented (encode i))) (hword : encode i = op) :
    ∃ t, exec i s = .next t ∧ OnlyChanges s t (fun p => p = .fault)
      ∧ t.fault = some ⟨.notImplemented, s.pc, op⟩ :=
  ⟨_, h, (OnlyChanges.refl s).raise rfl, by rw [← hword]; rfl⟩

/-! ### One draw (R120, R122, R124) -/

theorem State.spriteRows_getElem (s : State) (k j : Nat) (h : j < (s.spriteRows k).length) :
    (s.spriteRows k)[j] = s.memRead (s.i.toNat + j) := by
  simp [State.spriteRows]

/-- The bits of the rows that `DXYN` draws are the bits of the sprite at `I`. -/
theorem bitOfRows_spriteRows (s : State) (x y : Reg) (k : Nibble) (r c : Nat) :
    bitOfRows (s.reg y).toNat (s.reg x).toNat (s.spriteRows k.toNat) r c = spriteBit s x y k.toNat r c := by
  have hlen : (s.spriteRows k.toNat).length < 32 := by rw [State.spriteRows_length]; omega
  rw [Bool.eq_iff_iff, bitOfRows_iff _ _ _ _ _ hlen]
  simp only [State.spriteRows_getElem, State.spriteRows_length, spriteBit, Bool.and_eq_true, decide_eq_true_eq,
    exists_prop, and_assoc]

/-- The state after `DXYN`. -/
def State.drawn (s : State) (x y : Reg) (k : Nibble) : State :=
  let sprite := drawSprite s.screen (s.reg y).toNat (s.reg x).toNat (s.spriteRows k.toNat)
  (s.setScreen sprite.1).setReg Reg.VF (flagByte sprite.2)

section
variable (s : State) (x y : Reg) (k : Nibble)

theorem exec_drw : exec (.drw x y k) s = .next (s.drawn x y k) := rfl

theorem State.drawn_onlyChanges :
    OnlyChanges s (s.drawn x y k) (fun p => p = .screen ∨ p = .reg Reg.VF) :=
  ((OnlyChanges.refl s).setScreen (.inl rfl)).setReg (.inr rfl)

theorem State.drawn_pixel (r c : Nat) :
    (s.drawn x y k).screen.pixel r c = Bool.xor (s.screen.pixel r c) (spriteBit s x y k.toNat r c) := by
  rw [← bitOfRows_spriteRows]
  exact drawSprite_pixel _ _ _ _ (by rw [State.spriteRows_length]; omega) r c

/-- `VF` is the collision flag. -/
theorem State.drawn_reg_VF : ∃ collided, (s.drawn x y k).reg Reg.VF = flagByte collided
    ∧ (collided = true ↔ Collides s x y k.toNat) := by
  refine ⟨_, by rw [State.drawn, State.setReg_reg, if_pos rfl], ?_⟩
  rw [drawSprite_collision _ _ _ _ (by rw [State.spriteRows_length]; omega)]
  simp only [bitOfRows_spriteRows, Collides]

theorem State.drawn_reg_VF_of_collides (h : Collides s x y k.toNat) : (s.drawn x y k).reg Reg.VF = 1 := by
  obtain ⟨collided, hVF, hiff⟩ := s.drawn_reg_VF x y k
  rw [hVF, hiff.mpr h]
  rfl

theorem State.drawn_reg_VF_of_not_collides (h : ¬ Collides s x y k.toNat) :
    (s.drawn x y k).reg Reg.VF = 0 := by
  obtain ⟨collided, hVF, hiff⟩ := s.drawn_reg_VF x y k
  rw [hVF, Bool.eq_false_iff.mpr (h ∘ hiff.mp)]
  rfl

/-! ### The second draw -/

theorem not_collides_of_blank (h : s.screen = Screen.blank) (n : Nat) : ¬ Collides s x y n := by
  rintro ⟨r, -, c, -, hlit, -⟩
  simp [h] at hlit

/-- A draw leaves the sprite where it was, its coordinates not being in `VF`. -/
theorem State.spriteBit_drawn {x y : Reg} (hx : x ≠ Reg.VF) (hy : y ≠ Reg.VF) (n r c : Nat) :
    spriteBit (s.drawn x y k) x y n r c = spriteBit s x y n r c := by
  simp [spriteBit, State.drawn, hx, hy]

theorem State.drawn_drawn_screen {x y : Reg} (hx : x ≠ Reg.VF) (hy : y ≠ Reg.VF) :
    ((s.drawn x y k).drawn x y k).screen = s.screen :=
  Screen.ext_pixel fun r _ c _ => by
    rw [State.drawn_pixel, State.drawn_pixel, State.spriteBit_drawn s k hx hy, Bool.xor_assoc, Bool.xor_self,
      Bool.xor_false]

/-- On a blank screen the sprite lies under itself after the first draw. -/
theorem collides_drawn_of_blank {x y : Reg} (hx : x ≠ Reg.VF) (hy : y ≠ Reg.VF)
    (hblank : s.screen = Screen.blank) (hbit : ∃ r < 32, ∃ c < 64, spriteBit s x y k.toNat r c = true) :
    Collides (s.drawn x y k) x y k.toNat := by
  obtain ⟨r, hr, c, hc, hbit⟩ := hbit
  refine ⟨r, hr, c, hc, ?_, ?_⟩
  · rw [State.drawn_pixel, hblank, Screen.pixel_blank, hbit, Bool.false_xor]
  · rw [State.spriteBit_drawn s k hx hy, hbit]

end

end Sys2Proof.Machine

namespace Sys2Proof
open Sys2Proof.Machine

/-- Settles O24: the drawn state, pixel by pixel and by its collision flag. -/
theorem drawXorsTheSpriteAndReportsCollision : Obligations.DrawXorsTheSpriteAndReportsCollision :=
  fun s x y k => ⟨rfl, s.drawn x y k, exec_drw s x y k, fun r _ c _ => s.drawn_pixel x y k r c,
    s.drawn_reg_VF_of_collides x y k, s.drawn_reg_VF_of_not_collides x y k, s.drawn_onlyChanges x y k⟩

/-- Settles O25: each pixel is XORed twice with the same bit, and on a blank screen the second draw meets the
first one's bits. -/
theorem drawingTwiceRestoresTheScreen : Obligations.DrawingTwiceRestoresTheScreen := by
  intro s x y k hx hy
  refine ⟨_, _, exec_drw s x y k, exec_drw _ x y k, s.drawn_drawn_screen k hx hy,
    fun hblank => ⟨?_, fun hbit => ?_⟩⟩
  · exact s.drawn_reg_VF_of_not_collides x y k (not_collides_of_blank s x y hblank _)
  · exact State.drawn_reg_VF_of_collides _ x y k (collides_drawn_of_blank s k hx hy hblank hbit)

/-- Settles O23: the row of the opcode table, and the blank screen put in. -/
theorem clearScreenZeroesEveryPixel : Obligations.ClearScreenZeroesEveryPixel :=
  ⟨opcodeTableDecodesByMaskAndMatch.1, rfl, fun s => ⟨_, rfl, fun r _ c _ => Screen.pixel_blank r c,
    (OnlyChanges.refl s).setScreen rfl⟩⟩

/-- Settles O26: each latches its own word. -/
theorem declaredInstructionsLatchNotImplemented : Obligations.DeclaredInstructionsLatchNotImplemented :=
  fun _ k => ⟨exec_declared rfl (encode_scd k), exec_declared rfl rfl, exec_declared rfl rfl,
    exec_declared rfl rfl, exec_declared rfl rfl⟩

end Sys2Proof
end

section
/-! The control-transfer instructions (42_control_flow.md): the parts they change, the equation of each branch of
`CALL` and `RET`, and the steps that run them, which the machine does not advance. -/

namespace Sys2Proof
open Sys2Proof.Machine

/-! ### The parts that control transfer changes -/

namespace OnlyChanges

variable {s t : State} {allowed : Part → Prop}

theorem setPc (h : OnlyChanges s t allowed) {w : Word} (hpc : allowed .pc) :
    OnlyChanges s (t.setPc w) allowed := fun p hp => by
  cases p with
  | pc => exact absurd hpc hp
  | _ => exact h _ hp

theorem setStack (h : OnlyChanges s t allowed) {l : List Word} (hst : allowed .stack) :
    OnlyChanges s (t.setStack l) allowed := fun p hp => by
  cases p with
  | stack => exact absurd hst hp
  | _ => exact h _ hp

theorem push (h : OnlyChanges s t allowed) {a : Word} (hst : allowed .stack) :
    OnlyChanges s (t.push a) allowed := h.setStack hst

end OnlyChanges

/-! ### Words -/

/-- The rows of the opcode table by their place in it (30_encoding.md R80). -/
theorem rowIs_getElem (j : Fin 39) : RowIs rows[j].format.mask rows[j].format.pattern rows[j].build :=
  rowIs_of_mem (List.getElem_mem _)

theorem wordNNN_toNat (d : Nibble) (k : Addr12) : (wordNNN d k).toNat = 0x1000 * d.toNat + k.toNat := by
  rw [wordNNN, BitVec.toNat_append, ← Nat.shiftLeft_add_eq_or_of_lt k.isLt, Nat.shiftLeft_eq, Nat.mul_comm]

theorem encode_call (k : Addr12) : encode (.call k) = 0x2000 + k.setWidth 16 := by
  apply BitVec.eq_of_toNat_eq
  rw [encode, wordNNN_toNat]
  bv_omega

/-- The words of `5XYn` and `9XYn` with `n ≠ 0` are listed among the illegal ones (30_encoding.md R81). -/
theorem decode_not_register_skip {op : Word} (h : op &&& 0xF000 = 0x5000 ∨ op &&& 0xF000 = 0x9000)
    (hlast : op &&& 0x000F ≠ 0) : decode op = .error .unknownInstruction := by
  rw [illegalWordsAreExactlyThoseListed]
  obtain h5 | h9 := h
  · exact .inr (.inl ⟨h5, hlast⟩)
  · exact .inr (.inr (.inr (.inl ⟨h9, hlast⟩)))

end Sys2Proof

namespace Sys2Proof.Machine

variable {s t : State} {i : Instr} {k : Addr12}

/-! ### Jumps (R142, R148) -/

/-- The machine does not advance a jump-style instruction (40_execution_cycle.md R104). -/
theorem step_runs_jump (hfetch : fetch s = .runs i) (hjump : isJump i = true) (hexec : exec i s = .next t) :
    step s = .next t := by
  rw [step_runs s t i hfetch hexec, retire_jump i t hjump]

theorem exec_jp : exec (.jp k) s = .next (s.setPc (k.setWidth 16)) := rfl

theorem exec_jpV0 : exec (.jpV0 k) s = .next (s.setPc ((s.reg Reg.V0).setWidth 16 + k.setWidth 16)) := rfl

theorem State.setPc_self (s : State) : s.setPc s.pc = s := rfl

theorem setWidth_addr_toNat (k : Addr12) : (k.setWidth 16 : Word).toNat = k.toNat := by
  bv_omega

/-- A running machine whose `PC` is past the end of memory exits (40_execution_cycle.md R101). -/
theorem step_past_end (hrun : Running s) (hpc : s.cfg.memSize ≤ s.pc.toNat) : step s = .next (s.setExit 0) :=
  have ⟨hexit, hfault⟩ := hrun
  step_exits ((fetch_exits_iff s).mpr ⟨hfault, hexit, .inl hpc⟩)

/-! ### Skips (R144 to R147, R149) -/

/-- An instruction that skips by a test which decides `P`. -/
theorem exec_skip {cond : Bool} {P : Prop} [Decidable P] (h : exec i s = .next (s.skipIf cond))
    (hcond : cond = true ↔ P) : ∃ t, exec i s = .next t ∧ t.pc = s.pc + (if P then 4 else 2)
      ∧ OnlyChanges s t (fun p => p = .pc) := by
  refine ⟨_, h, ?_, (OnlyChanges.refl s).setPc rfl⟩
  rw [State.skipIf_eq, State.setPc_pc]
  simp only [hcond]

/-! ### Calls and returns (R141, R143) -/

/-- There is room when every bound on the stack lies above its length (10_state.md R31). -/
theorem stackFull_eq_false_iff (s : State) :
    s.stackFull = false ↔ ∀ n, s.cfg.stackDepth = .bounded n → s.stack.length < n := by
  simp [← Bool.not_eq_true, stackFull_iff]

theorem exec_call_of_room (h : s.stackFull = false) :
    exec (.call k) s = .next ((s.push (s.pc + 2)).setPc (k.setWidth 16)) := by
  simp [exec, execCall, h]

theorem exec_call_of_full (h : s.stackFull = true) :
    exec (.call k) s = .next (s.raise .stackOverflow (encode (.call k))) := by
  simp [exec, execCall, h]

theorem exec_ret_of_cons {a : Word} {rest : List Word} (h : s.stack = a :: rest) :
    exec .ret s = .next ((s.setStack rest).setPc a) := by
  simp [exec, execRet, h]

theorem exec_ret_of_nil (h : s.stack = []) : exec .ret s = .next (s.raise .stackUnderflow (encode .ret)) := by
  simp [exec, execRet, h]

/-- A return undoes a push and whatever jump followed it. -/
theorem exec_ret_push_setPc (a target : Word) : exec .ret ((s.push a).setPc target) = .next (s.setPc a) :=
  exec_ret_of_cons rfl

end Sys2Proof.Machine

namespace Sys2Proof
open Sys2Proof.Machine

/-- Settles O32: the return undoes the push, and neither instruction is advanced. -/
theorem returnResumesAfterTheCall : Obligations.ReturnResumesAfterTheCall := by
  intro s k hroom
  have hcall := exec_call_of_room (k := k) ((stackFull_eq_false_iff s).mpr hroom)
  have hret := exec_ret_push_setPc (s := s) (s.pc + 2) (k.setWidth 16)
  exact ⟨_, hcall, hret, fun hfetchCall =>
    ⟨step_runs_jump hfetchCall rfl hcall, fun hfetchRet => step_runs_jump hfetchRet rfl hret⟩⟩

/-- Settles O27: a target equal to `PC` is written back, and one past the end of memory exits at the next
step. -/
theorem jumpGoesToItsConstant : Obligations.JumpGoesToItsConstant := by
  refine ⟨rowIs_getElem 2, fun s k => ⟨rfl, _, exec_jp, setWidth_addr_toNat k, (OnlyChanges.refl s).setPc rfl,
    fun hself => ?_, fun hrun hend => step_past_end hrun ?_⟩⟩
  · have hpc : k.setWidth 16 = s.pc := BitVec.eq_of_toNat_eq ((setWidth_addr_toNat k).trans hself.symm)
    rw [hpc, State.setPc_self]
  · rwa [State.setPc_pc, setWidth_addr_toNat]

/-- Settles O28: the sum of a byte and 12 bits fits in 16. -/
theorem jumpWithOffsetAddsV0Exactly : Obligations.JumpWithOffsetAddsV0Exactly := by
  refine fun s k => ⟨rfl, _, exec_jpV0, ?_, (OnlyChanges.refl s).setPc rfl⟩
  rw [State.setPc_pc]
  bv_omega

/-- Settles O29: each skip by its test. -/
theorem skipsMovePcByFourOrTwo : Obligations.SkipsMovePcByFourOrTwo :=
  ⟨⟨rowIs_getElem 4, rowIs_getElem 5, rowIs_getElem 6, rowIs_getElem 18⟩, fun _ => decode_not_register_skip,
    fun _ _ _ _ => ⟨⟨rfl, exec_skip rfl beq_iff_eq⟩, ⟨rfl, exec_skip rfl bne_iff_ne⟩,
      ⟨rfl, exec_skip rfl beq_iff_eq⟩, ⟨rfl, exec_skip rfl bne_iff_ne⟩⟩⟩

/-- Settles O30: with room and with a full stack. -/
theorem callPushesTheReturnAddress : Obligations.CallPushesTheReturnAddress := by
  refine fun s k => ⟨fun hroom => ?_, fun n hdepth hlen => ?_⟩
  · exact ⟨_, exec_call_of_room ((stackFull_eq_false_iff s).mpr hroom), setWidth_addr_toNat k, rfl,
      ((OnlyChanges.refl s).push (.inr rfl)).setPc (.inl rfl)⟩
  · have hfull := (stackFull_iff s).mpr ⟨n, hdepth, hlen.ge⟩
    exact ⟨_, exec_call_of_full hfull, by rw [State.raise_fault, encode_call], (OnlyChanges.refl s).raise rfl⟩

/-- Settles O31: with an entry on top and with an empty stack. -/
theorem returnPopsIntoPc : Obligations.ReturnPopsIntoPc :=
  fun s => ⟨rfl,
    fun _ _ hstack => ⟨_, exec_ret_of_cons hstack, rfl, rfl,
      ((OnlyChanges.refl s).setStack (.inr rfl)).setPc (.inl rfl)⟩,
    fun hstack => ⟨_, exec_ret_of_nil hstack, rfl, (OnlyChanges.refl s).raise rfl⟩⟩

end Sys2Proof
end

section
/-! The register and arithmetic instructions (43_alu.md): the parts they change, what `V[x]` and `VF` hold after a
result or a result and a flag were written, and the arithmetic of bytes. -/

namespace Sys2Proof
open Sys2Proof.Machine

/-! ### The parts that arithmetic changes -/

namespace OnlyChanges

variable {s t : State} {allowed : Part → Prop}

theorem countDraw (h : OnlyChanges s t allowed) (hd : allowed .draws) : OnlyChanges s t.countDraw allowed :=
  fun p hp => by
    cases p with
    | draws => exact absurd hd hp
    | _ => exact h _ hp

theorem writeResultFlag (h : OnlyChanges s t allowed) {x : Reg} {result : Byte} {flag : Bool}
    (hx : allowed (.reg x)) (hflag : allowed (.reg Reg.VF)) :
    OnlyChanges s (t.writeResultFlag x result flag) allowed :=
  (h.setReg hx).setReg hflag

end OnlyChanges
end Sys2Proof

namespace Sys2Proof.Machine

/-! ### Registers after a write (R170) -/

theorem State.setReg_reg_self (s : State) (r : Reg) (b : Byte) : (s.setReg r b).reg r = b := by
  rw [State.setReg_reg, if_pos rfl]

theorem State.setReg_onlyChanges (s : State) (r : Reg) (b : Byte) :
    OnlyChanges s (s.setReg r b) (fun p => p = .reg r) :=
  (OnlyChanges.refl s).setReg rfl

section
variable {s : State} {x : Reg} {result : Byte} {flag : Bool}

/-- The flag is written last (R170, D6). -/
theorem State.writeResultFlag_reg_VF : (s.writeResultFlag x result flag).reg Reg.VF = flagByte flag := by
  rw [State.writeResultFlag_reg, if_pos rfl]

theorem State.writeResultFlag_reg_of_ne_VF (hx : x ≠ Reg.VF) :
    (s.writeResultFlag x result flag).reg x = result := by
  rw [State.writeResultFlag_reg, if_neg hx, if_pos rfl]

theorem flagByte_decide (P : Prop) [Decidable P] : flagByte (decide P) = if P then 1 else 0 := by
  simp only [flagByte, decide_eq_true_eq]

theorem flagByte_toNat (b : Bool) : (flagByte b).toNat = b.toNat := by
  cases b <;> rfl

/-! ### Instructions that write a result and a flag -/

variable {i : Instr} {n m : Nat}

/-- The result is told by its value, and the flag by the test that decides it. -/
theorem exec_result_and_test {P : Prop} [Decidable P]
    (h : exec i s = .next (s.writeResultFlag x result (decide P))) (hresult : result.toNat = n) :
    ∃ t, exec i s = .next t ∧ (x ≠ Reg.VF → (t.reg x).toNat = n) ∧ t.reg Reg.VF = (if P then 1 else 0)
      ∧ OnlyChanges s t (fun p => p = .reg x ∨ p = .reg Reg.VF) :=
  ⟨_, h, fun hx => by rw [State.writeResultFlag_reg_of_ne_VF hx, hresult],
    by rw [State.writeResultFlag_reg_VF, flagByte_decide],
    (OnlyChanges.refl s).writeResultFlag (.inl rfl) (.inr rfl)⟩

/-- The result and the flag are both told by their values. -/
theorem exec_result_and_bit (h : exec i s = .next (s.writeResultFlag x result flag))
    (hresult : result.toNat = n) (hflag : flag.toNat = m) :
    ∃ t, exec i s = .next t ∧ (x ≠ Reg.VF → (t.reg x).toNat = n) ∧ (t.reg Reg.VF).toNat = m
      ∧ OnlyChanges s t (fun p => p = .reg x ∨ p = .reg Reg.VF) :=
  ⟨_, h, fun hx => by rw [State.writeResultFlag_reg_of_ne_VF hx, hresult],
    by rw [State.writeResultFlag_reg_VF, flagByte_toNat, hflag],
    (OnlyChanges.refl s).writeResultFlag (.inl rfl) (.inr rfl)⟩

end

/-! ### Bytes (R183) -/

theorem byte_sub_toNat (a b : Byte) : (a - b).toNat = (256 + a.toNat - b.toNat) % 256 := by
  bv_omega

/-- The operand of a shift by `SHIFT_SOURCE` (R179, R181, D28). -/
theorem State.shiftOperand_eq (s : State) (x y : Reg) :
    s.shiftOperand x y = if s.cfg.shiftSource = .vx then s.reg x else s.reg y := by
  unfold State.shiftOperand
  cases s.cfg.shiftSource <;> rfl

theorem byte_shr_toNat (a : Byte) : (a >>> 1).toNat = a.toNat / 2 := by
  rw [BitVec.toNat_ushiftRight, Nat.shiftRight_one]

theorem byte_shl_toNat (a : Byte) : (a <<< 1).toNat = 2 * a.toNat % 256 := by
  rw [BitVec.toNat_shiftLeft, Nat.shiftLeft_eq, Nat.mul_comm]

theorem lowBitOut_toNat (a : Byte) : (lowBitOut a).toNat = a.toNat % 2 := by
  rw [lowBitOut, BitVec.getLsbD, Nat.toNat_testBit, pow_zero, Nat.div_one]

/-- The top bit of a byte is its quotient by 128, which is 0 or 1. -/
theorem highBitOut_toNat (a : Byte) : (highBitOut a).toNat = a.toNat / 128 := by
  have ha : a.toNat / 128 < 2 := by omega
  exact (Nat.toNat_testBit a.toNat 7).trans (Nat.mod_eq_of_lt ha)

end Sys2Proof.Machine

namespace Sys2Proof
open Sys2Proof.Machine

/-- Settles O35: the carry is the test of the sum. -/
theorem addSetsTheCarry : Obligations.AddSetsTheCarry :=
  fun _ _ _ => ⟨rfl, exec_result_and_test rfl (BitVec.toNat_add _ _)⟩

/-- Settles O36: one difference, its operands either way round. -/
theorem subtractionsSetNotBorrow : Obligations.SubtractionsSetNotBorrow :=
  fun _ _ _ => ⟨⟨rfl, exec_result_and_test rfl (byte_sub_toNat _ _)⟩,
    ⟨rfl, exec_result_and_test rfl (byte_sub_toNat _ _)⟩⟩

/-- Settles O37: half or twice the operand, and its bit 0 or bit 7. -/
theorem shiftsSetTheBitShiftedOut : Obligations.ShiftsSetTheBitShiftedOut := by
  intro s x y src hsrc
  rw [← s.shiftOperand_eq x y] at hsrc
  subst hsrc
  exact ⟨⟨rfl, exec_result_and_bit rfl (byte_shr_toNat _) (lowBitOut_toNat _)⟩,
    ⟨rfl, exec_result_and_bit rfl (byte_shl_toNat _) (highBitOut_toNat _)⟩⟩

/-- Settles O33: the rows of the opcode table, and one register written. -/
theorem loadAddConstantAndCopy : Obligations.LoadAddConstantAndCopy := by
  refine ⟨⟨rowIs_getElem 7, rowIs_getElem 8, rowIs_getElem 9⟩, fun s x y k => ?_⟩
  exact ⟨⟨rfl, _, rfl, s.setReg_reg_self x k, s.setReg_onlyChanges x k⟩,
    ⟨rfl, _, rfl, by rw [State.setReg_reg_self, BitVec.toNat_add], s.setReg_onlyChanges x _⟩,
    ⟨rfl, _, rfl, s.setReg_reg_self x (s.reg y), s.setReg_onlyChanges x _⟩⟩

/-- Settles O34: the rows of the opcode table, and one register written bit by bit. -/
theorem bitwiseInstructionsWorkBitByBit : Obligations.BitwiseInstructionsWorkBitByBit := by
  refine ⟨⟨rowIs_getElem 10, rowIs_getElem 11, rowIs_getElem 12⟩, fun s x y => ?_⟩
  exact ⟨⟨rfl, _, rfl, fun n _ => by rw [State.setReg_reg_self, BitVec.getLsbD_or], s.setReg_onlyChanges x _⟩,
    ⟨rfl, _, rfl, fun n _ => by rw [State.setReg_reg_self, BitVec.getLsbD_and], s.setReg_onlyChanges x _⟩,
    ⟨rfl, _, rfl, fun n _ => by rw [State.setReg_reg_self, BitVec.getLsbD_xor], s.setReg_onlyChanges x _⟩⟩

/-- Settles O38: the draw masked by the constant, in a state that counts the draw. -/
theorem randomIsMaskedByItsConstant : Obligations.RandomIsMaskedByItsConstant := by
  intro s x k
  have hreg : (s.countDraw.setReg x (s.randomByte &&& k)).reg x = s.randomByte &&& k :=
    State.setReg_reg_self _ x _
  refine ⟨rfl, _, rfl, ⟨s.randomByte, rfl, fun n _ => ?_⟩, ?_, rfl,
    ((OnlyChanges.refl s).countDraw (.inr rfl)).setReg (.inl rfl)⟩
  · rw [hreg, BitVec.getLsbD_and]
  · rw [hreg, BitVec.and_assoc, BitVec.and_not_self]
    exact BitVec.and_zero

end Sys2Proof
end

section
/-! The address-register and memory instructions (44_index_memory.md): the parts they change, the address that
`FX29` gives, `I` after `FX55` and `FX65`, and the bytes at the data addresses after a store. -/

namespace Sys2Proof
open Sys2Proof.Machine

/-! ### The parts that the instructions on `I` and memory change -/

namespace OnlyChanges

variable {s t : State} {allowed more : Part → Prop}

theorem mono (h : OnlyChanges s t allowed) (hmore : ∀ p, allowed p → more p) : OnlyChanges s t more :=
  fun p hp => h p (hp ∘ hmore p)

theorem setI (h : OnlyChanges s t allowed) {w : Word} (hi : allowed .i) : OnlyChanges s (t.setI w) allowed :=
  fun p hp => by
    cases p with
    | i => exact absurd hi hp
    | _ => exact h _ hp

theorem compatAdvanceI (h : OnlyChanges s t allowed) {x : Reg} (hi : allowed .i) :
    OnlyChanges s (t.compatAdvanceI x) allowed := by
  rw [State.compatAdvanceI_eq]
  exact h.setI hi

theorem loadRegsFrom (h : OnlyChanges s t allowed) (a : Nat) {rs : List Reg}
    (hrs : ∀ r ∈ rs, allowed (.reg r)) : OnlyChanges s (t.loadRegsFrom a rs) allowed := by
  induction rs generalizing t with
  | nil => exact h
  | cons r rs ih =>
    obtain ⟨hr, hrest⟩ := List.forall_mem_cons.mp hrs
    exact ih (h.setReg hr) hrest

end OnlyChanges
end Sys2Proof

namespace Sys2Proof.Machine

variable {s : State} {x : Reg}

/-! ### Instructions that set `I` (R200, R201, R202) -/

/-- An instruction that puts a word of value `n` into `I`. -/
theorem exec_sets_i {i : Instr} {w : Word} {n : Nat} (h : exec i s = .next (s.setI w)) (hw : w.toNat = n) :
    ∃ t, exec i s = .next t ∧ t.i.toNat = n ∧ OnlyChanges s t (fun p => p = .i) :=
  ⟨_, h, hw, (OnlyChanges.refl s).setI rfl⟩

/-- A digit's address is its font address, and so is five times a larger value under `MULTIPLY`. -/
theorem charAddress_of_le_or_multiply {policy : FontIndexPolicy} {v : Byte}
    (h : v.toNat ≤ 15 ∨ policy = .multiply) : charAddress policy v = .ok (BitVec.ofNat 16 (5 * v.toNat)) := by
  unfold charAddress
  split
  · rfl
  · obtain rfl := h.resolve_left ‹_›
    rfl

theorem charAddress_lowNibble {v : Byte} (h : 15 < v.toNat) :
    charAddress .lowNibble v = .ok (BitVec.ofNat 16 (5 * (v.toNat % 16))) :=
  if_neg (by omega)

theorem charAddress_fault {v : Byte} (h : 15 < v.toNat) : charAddress .fault v = .error .fontIndex :=
  if_neg (by omega)

theorem exec_ldF_of_ok {a : Word} (h : charAddress s.cfg.fontIndexPolicy (s.reg x) = .ok a) :
    exec (.ldF x) s = .next (s.setI a) := by
  simp only [exec, execLdF, h]

theorem exec_ldF_of_error {kind : Fault} (h : charAddress s.cfg.fontIndexPolicy (s.reg x) = .error kind) :
    exec (.ldF x) s = .next (s.raise kind (encode (.ldF x))) := by
  simp only [exec, execLdF, h]

/-! ### `I` after `FX55` and `FX65` (R204, R205) -/

@[simp] theorem State.compatAdvanceI_reg (s : State) (x r : Reg) : (s.compatAdvanceI x).reg r = s.reg r := by
  rw [State.compatAdvanceI_eq]; rfl

@[simp] theorem State.compatAdvanceI_memRead (s : State) (x : Reg) (a : Nat) :
    (s.compatAdvanceI x).memRead a = s.memRead a := by
  rw [State.compatAdvanceI_eq]; rfl

/-- `I` moves past `x + 1` bytes under `COMPAT_MODE`, modulo 2^16, and is left otherwise. -/
theorem State.compatAdvanceI_i (s : State) (x : Reg) :
    (s.cfg.compatMode = true → (s.compatAdvanceI x).i.toNat = (s.i.toNat + x.val + 1) % 0x10000)
      ∧ (s.cfg.compatMode = false → (s.compatAdvanceI x).i = s.i) := by
  refine ⟨fun hmode => ?_, fun hmode => by simp [State.compatAdvanceI, hmode]⟩
  rw [State.compatAdvanceI, if_pos hmode, State.setI_i, BitVec.toNat_add, BitVec.toNat_ofNat, Nat.add_mod_mod,
    Nat.add_assoc]

/-! ### The data addresses after a store (20_memory.md R51) -/

@[simp] theorem State.memWriteAll_i (s : State) (a : Nat) (bs : List Byte) : (s.memWriteAll a bs).i = s.i := by
  rw [State.memWriteAll_eq]

/-- The `j`-th byte stored from `I` on is read back at the `j`-th data address. -/
theorem State.memWriteAll_memRead_dataAddr {bs : List Byte} {j : Nat} {b : Byte} (hlegal : s.cfg.legal = true)
    (hwf : Memory.wf s.cfg s.mem = true) (hlen : bs.length ≤ 16) (hj : bs[j]? = some b) :
    (s.memWriteAll s.i.toNat bs).memRead (s.dataAddr j) = b := by
  obtain ⟨hlt, rfl⟩ := List.getElem?_eq_some_iff.mp hj
  have hsize := (legal_sizes hlegal).1
  have hmod := (s.memWriteAll s.i.toNat bs).memRead_mod (s.i.toNat + j)
  rw [State.memWriteAll_cfg] at hmod
  rw [State.dataAddr, hmod]
  exact State.memWriteAll_read s s.i.toNat j bs hwf (by omega) hlt

/-- `FX55` stores `Vr` as its `r`-th byte. -/
theorem regsUpTo_map_getElem? (f : Reg → Byte) {r : Reg} (h : r ≤ x) :
    ((regsUpTo x).map f)[r.val]? = some (f r) := by
  have hr : r.val < (regsUpTo x).length := by rw [regsUpTo_length]; exact Nat.lt_succ_of_le h
  have hget : (regsUpTo x)[r.val] = r := Fin.ext (regsUpTo_getElem x r.val hr)
  rw [List.getElem?_map, List.getElem?_eq_getElem hr, hget, Option.map_some]

/-- The values of the bytes that `FX33` has stored, each digit times 5 under `FONT_ADDRESS` (R203). -/
theorem State.memWriteAll_bcdBytes_memRead_toNat {scale j n : Nat} (hlegal : s.cfg.legal = true)
    (hwf : Memory.wf s.cfg s.mem = true) (hscale : scale = if s.cfg.bcdMode = .fontAddress then 5 else 1)
    (hj : [scale * ((s.reg x).toNat / 100), scale * ((s.reg x).toNat / 10 % 10),
      scale * ((s.reg x).toNat % 10)][j]? = some n) :
    ((s.memWriteAll s.i.toNat (bcdBytes s.cfg.bcdMode (s.reg x))).memRead (s.dataAddr j)).toNat = n := by
  rw [← bcdBytes_map_toNat _ _ scale hscale, List.getElem?_map] at hj
  obtain ⟨b, hb, rfl⟩ := Option.map_eq_some_iff.mp hj
  rw [State.memWriteAll_memRead_dataAddr hlegal hwf (by simp) hb]

/-- The registers after `FX65`: the bytes at the data addresses up to `Vx`, the others kept. -/
theorem State.loadRegsFrom_regsUpTo_reg (s : State) (x r : Reg) :
    (s.loadRegsFrom s.i.toNat (regsUpTo x)).reg r = if r ≤ x then s.memRead (s.dataAddr r.val) else s.reg r := by
  simp only [State.loadRegsFrom_reg, mem_regsUpTo, State.dataAddr, State.memRead_mod]

end Sys2Proof.Machine

namespace Sys2Proof
open Sys2Proof.Machine

/-- Settles O42: the stored bytes read back by their values, in the frame of the instruction. -/
theorem bcdStoresThreeDigits : Obligations.BcdStoresThreeDigits := by
  rintro s x v scale hlegal hwf rfl hscale
  have hread {j n} := State.memWriteAll_bcdBytes_memRead_toNat (x := x) (j := j) (n := n) hlegal hwf hscale
  exact ⟨rfl, _, rfl, hread rfl, hread rfl, hread rfl, eachInstructionWritesOnlyItsParts s _ (.ldB x) hlegal hwf rfl⟩

/-- Settles O43: the row of the opcode table, the stored registers read back, and `I` moved after the store. -/
theorem storeRegistersWritesMemory : Obligations.StoreRegistersWritesMemory := by
  refine ⟨rowIs_getElem 32, fun s x hlegal hwf => ?_⟩
  have hi := (s.memWriteAll s.i.toNat ((regsUpTo x).map s.reg)).compatAdvanceI_i x
  rw [State.memWriteAll_cfg, State.memWriteAll_i] at hi
  obtain ⟨hcompat, hkept⟩ := hi
  refine ⟨rfl, _, rfl, fun r hr => ?_, hcompat, hkept, ?_⟩
  · rw [State.compatAdvanceI_memRead]
    exact State.memWriteAll_memRead_dataAddr hlegal hwf (by rw [List.length_map, regsUpTo_length]; omega)
      (regsUpTo_map_getElem? s.reg hr)
  · exact (eachInstructionWritesOnlyItsParts s _ (.storeRegs x) hlegal hwf rfl).mono
      fun p => Or.imp_right And.right

/-- Settles O44: the row of the opcode table, the registers loaded from the old `I`, and `I` moved after the
load. -/
theorem loadRegistersReadsMemory : Obligations.LoadRegistersReadsMemory := by
  refine ⟨rowIs_getElem 33, fun s x => ?_⟩
  obtain ⟨-, hcfg, hi, -⟩ := s.loadRegsFrom_other s.i.toNat (regsUpTo x)
  have hmoved := (s.loadRegsFrom s.i.toNat (regsUpTo x)).compatAdvanceI_i x
  rw [hcfg, hi] at hmoved
  obtain ⟨hcompat, hkept⟩ := hmoved
  refine ⟨rfl, _, rfl, fun r => ?_, hcompat, hkept, ?_⟩
  · rw [State.compatAdvanceI_reg, State.loadRegsFrom_regsUpTo_reg]
  · exact ((OnlyChanges.refl s).loadRegsFrom _ fun r hr => .inl ⟨r, (mem_regsUpTo x r).mp hr, rfl⟩).compatAdvanceI
      (.inr rfl)

/-- Settles O39: the row of the opcode table, and the constant put into `I`. -/
theorem loadIndexSetsI : Obligations.LoadIndexSetsI :=
  ⟨rowIs_getElem 19, fun _ k => ⟨rfl, exec_sets_i rfl (setWidth_addr_toNat k)⟩⟩

/-- Settles O40: the 16-bit sum wraps (D4). -/
theorem addToIndexWrapsAtSixteenBits : Obligations.AddToIndexWrapsAtSixteenBits :=
  fun _ _ => ⟨rfl, exec_sets_i rfl (by bv_omega)⟩

/-- Settles O41: by what the policy makes of the value; five times a byte fits in 16 bits. -/
theorem characterAddressByPolicy : Obligations.CharacterAddressByPolicy := by
  rintro s x d rfl
  have hbyte : (s.reg x).toNat < 256 := (s.reg x).isLt
  refine ⟨rfl, fun hsmall => ?_, fun hlarge hpolicy => ?_, fun hlarge hpolicy => ?_⟩
  · exact exec_sets_i (exec_ldF_of_ok (charAddress_of_le_or_multiply hsmall)) (Nat.mod_eq_of_lt (by omega))
  · have haddr := charAddress_lowNibble hlarge
    rw [← hpolicy] at haddr
    exact exec_sets_i (exec_ldF_of_ok haddr) (Nat.mod_eq_of_lt (by omega))
  · have haddr := charAddress_fault hlarge
    rw [← hpolicy] at haddr
    exact ⟨_, exec_ldF_of_error haddr, rfl, (OnlyChanges.refl s).raise rfl⟩

end Sys2Proof
end

section
/-! The keyboard instructions (45_keyboard.md): the key that `V[x]` names, what `FX0A` does with and without a key
down, and the steps of the wait. -/

namespace Sys2Proof
open Sys2Proof.Machine

/-- The part that a wait for a key changes. -/
theorem OnlyChanges.setBlock {s t : State} {allowed : Part → Prop} (h : OnlyChanges s t allowed) {b : Bool}
    (hb : allowed .block) : OnlyChanges s (t.setBlock b) allowed := fun p hp => by
  cases p with
  | block => exact absurd hb hp
  | _ => exact h _ hp

end Sys2Proof

namespace Sys2Proof.Machine

variable {s t : State} {x : Reg}

/-! ### The key skips (R230, R231, R232) -/

/-- A value up to 15 names its key, and under `LOW_NIBBLE` the low nibble of a larger one does. -/
theorem keyIndex_of_le_or_lowNibble {policy : KeyIndexPolicy} {v : Byte}
    (h : v.toNat ≤ 15 ∨ policy = .lowNibble) : keyIndex policy v = .ok (Fin.ofNat 16 v.toNat) := by
  by_cases hv : v.toNat < 16
  · rw [keyIndex_small policy v hv]
    exact congrArg _ (Fin.ext (Nat.mod_eq_of_lt hv).symm)
  · obtain rfl := h.resolve_left (by omega)
    exact keyIndex_large _ v hv

theorem keyIndex_fault {v : Byte} (h : 15 < v.toNat) : keyIndex .fault v = .error .keyIndex :=
  keyIndex_large _ v (by omega)

theorem exec_skp_of_ok {k : Fin 16} (h : keyIndex s.cfg.keyIndexPolicy (s.reg x) = .ok k) :
    exec (.skp x) s = .next (s.skipIf (s.key k)) := by
  simp only [exec, execSkp, h]

theorem exec_sknp_of_ok {k : Fin 16} (h : keyIndex s.cfg.keyIndexPolicy (s.reg x) = .ok k) :
    exec (.sknp x) s = .next (s.skipIf (!s.key k)) := by
  simp only [exec, execSknp, h]

theorem exec_keySkip_of_error {i : Instr} {kind : Fault} (hi : i = .skp x ∨ i = .sknp x)
    (h : keyIndex s.cfg.keyIndexPolicy (s.reg x) = .error kind) :
    exec i s = .next (s.raise kind (encode i)) := by
  obtain rfl | rfl := hi
  · simp only [exec, execSkp, h]
  · simp only [exec, execSknp, h]

/-! ### The wait for a key (R233, R234) -/

/-- With no key down the wait goes on. -/
theorem exec_ldVxK_of_up (h : ∀ k, s.key k = false) : exec (.ldVxK x) s = .next (s.setBlock true) := by
  simp only [exec, execLdVxK, s.firstPressed_none h]

theorem exec_ldVxK_of_firstPressed {k : Fin 16} {drawn : State} (h : s.firstPressed = some (k, drawn)) :
    exec (.ldVxK x) s = .next ((drawn.setReg x (BitVec.ofNat 8 k.val)).setBlock false) := by
  simp only [exec, execLdVxK, h]

/-- A key's index fits in a register. -/
theorem ofNat_key_toNat (k : Fin 16) : (BitVec.ofNat 8 k.val).toNat = k.val :=
  Nat.mod_eq_of_lt (by omega)

/-- Choosing a key changes at most the count of draws. -/
theorem onlyChanges_of_drawn {drawn : State} {allowed : Part → Prop} (h : drawn = s ∨ drawn = s.countDraw)
    (hd : allowed .draws) : OnlyChanges s drawn allowed := by
  obtain rfl | rfl := h
  · exact .refl _
  · exact (OnlyChanges.refl s).countDraw hd

/-! ### `Block` over a step (R235; 10_state.md R40) -/

/-- No instruction but the wait for a key changes `Block`, whatever the configuration and memory are. -/
theorem exec_block {i : Instr} (hi : ∀ x, i ≠ .ldVxK x) (h : exec i s = .next t) : t.block = s.block := by
  cases i with
  | ldVxK x => exact absurd rfl (hi x)
  | ret => obtain ⟨-, rfl⟩ | ⟨top, rest, -, rfl⟩ := exec_ret_cases h <;> rfl
  | call k => obtain ⟨-, rfl⟩ | ⟨-, rfl⟩ := exec_call_cases h <;> rfl
  | skp x | sknp x => obtain ⟨cond, rfl⟩ | ⟨kind, op, rfl⟩ := exec_keySkip_cases (x := x) (by simp) h <;> rfl
  | ldF x => obtain ⟨w, rfl⟩ | ⟨kind, op, rfl⟩ := exec_ldF_cases h <;> rfl
  | ldB x => cases h; exact State.memWriteAll_block _ _ _
  | storeRegs x => cases h; rw [State.compatAdvanceI_eq, State.memWriteAll_block]
  | loadRegs x => cases h; rw [State.compatAdvanceI_eq, State.loadRegsFrom_eq]
  | _ => cases h; rfl

theorem retire_block (i : Instr) (t : State) : (retire i t).block = t.block := by
  rw [retire_eq_setPc, State.setPc_block]

/-- A step at an `FX0A` with no key down sets `Block`, and the machine does not advance. -/
theorem step_ldVxK_of_up (hfetch : fetch s = .runs (.ldVxK x)) (h : ∀ k, s.key k = false) :
    step s = .next (s.setBlock true) := by
  rw [step_runs _ _ _ hfetch (exec_ldVxK_of_up h), retire_blocked _ _ rfl]

/-- A step that runs no wait for a key leaves `Block` as it was. -/
theorem step_block (hfetch : ∀ x, fetch s ≠ .runs (.ldVxK x)) (h : step s = .next t) : t.block = s.block := by
  obtain ⟨-, rfl⟩ | ⟨-, rfl⟩ | ⟨kind, op, -, rfl⟩ | ⟨i, u, hi, hu, rfl⟩ := step_cases s t h
  · rfl
  · rfl
  · rfl
  · rw [retire_block, exec_block (fun x hx => hfetch x (hx ▸ hi)) hu]

end Sys2Proof.Machine

namespace Sys2Proof
open Sys2Proof.Machine

/-- The word of a fetched `FX0A` (30_encoding.md R80). -/
theorem fetchWord_of_runs_ldVxK {s : State} {x : Reg} (h : fetch s = .runs (.ldVxK x)) :
    s.fetchWord &&& 0xF0FF = 0xF00A := by
  obtain ⟨-, -, -, hdecode⟩ := (fetch_runs_iff s _).mp h
  rw [← encodeOfDecodeIsIdentity _ _ hdecode]
  exact wordXNN_and_F0FF 0xF x 0x0A

/-- Settles O47: by whether a key is down. -/
theorem waitForKeyBlocksOrTakesAKey : Obligations.WaitForKeyBlocksOrTakesAKey := by
  refine fun s x => ⟨rfl, fun hup => ⟨_, exec_ldVxK_of_up hup, rfl, (OnlyChanges.refl s).setBlock rfl⟩,
    fun hdown => ?_⟩
  obtain ⟨k, drawn, hfirst, hk, hdrawn, hlowest⟩ := s.firstPressed_some hdown
  refine ⟨_, k, exec_ldVxK_of_firstPressed hfirst, hk, fun hselect => ?_, ?_, rfl, ?_⟩
  · obtain ⟨rfl, hlower⟩ := hlowest hselect
    exact ⟨rfl, hlower⟩
  · rw [State.setBlock_reg, State.setReg_reg_self, ofNat_key_toNat]
  · exact ((onlyChanges_of_drawn hdrawn (.inr (.inr rfl))).setReg (.inl rfl)).setBlock (.inr (.inl rfl))

/-- A step at an `FX0A` with a key down takes one, and the machine advances. -/
theorem step_ldVxK_of_down {s : State} {x : Reg} (hfetch : fetch s = .runs (.ldVxK x))
    (hdown : ∃ k, s.key k = true) : ∃ t k, step s = .next t ∧ s.key k = true ∧ t.block = false
      ∧ (t.reg x).toNat = k.val ∧ t.pc = s.pc + 2
      ∧ OnlyChanges s t (fun p => p = .reg x ∨ p = .block ∨ p = .draws ∨ p = .pc) := by
  obtain ⟨hjump, -, htakes⟩ := waitForKeyBlocksOrTakesAKey s x
  obtain ⟨u, k, hexec, hk, -, hreg, hblock, honly⟩ := htakes hdown
  have hfault : u.fault = none := (honly .fault (by simp)).trans ((fetch_runs_iff s _).mp hfetch).1
  have hpc : u.pc = s.pc := honly .pc (by simp)
  refine ⟨u.setPc (s.pc + 2), k, ?_, hk, hblock, hreg, rfl, ?_⟩
  · rw [step_runs s u _ hfetch hexec, retire_advance _ _ hfault hjump hblock, hpc]
  · exact (honly.mono fun p => Or.imp_right (Or.imp_right .inl)).setPc (.inr (.inr (.inr rfl)))

/-- Settles O48: a step at an `FX0A` by whether a key is down, and no other step changes `Block`. -/
theorem waitStateMachine : Obligations.WaitStateMachine := by
  refine fun s => ⟨fun x hfetch => ⟨step_ldVxK_of_up hfetch, step_ldVxK_of_down hfetch⟩, fun t hs hstep hb => ?_⟩
  obtain ⟨x, hfetch⟩ : ∃ x, fetch s = .runs (.ldVxK x) := by
    by_contra hnot
    have hkept := step_block (not_exists.mp hnot) hstep
    exact hs.elim (by simp [← hkept, hb]) hnot
  by_cases hup : ∀ k, s.key k = false
  · rw [step_ldVxK_of_up hfetch hup] at hstep
    cases hstep
    exact ⟨rfl, fetchWord_of_runs_ldVxK hfetch⟩
  · obtain ⟨u, k, hu, -, hblock, -⟩ := step_ldVxK_of_down hfetch (by simpa using hup)
    rw [hu] at hstep
    cases hstep
    simp [hblock] at hb

/-- Settles O46: by whether `V[x]` names a key. -/
theorem keySkipsTestTheNamedKey : Obligations.KeySkipsTestTheNamedKey := by
  rintro s x v rfl
  refine ⟨rfl, rfl, fun hnamed => ?_, fun hlarge hpolicy => ?_⟩
  · have hkey := keyIndex_of_le_or_lowNibble hnamed
    exact ⟨exec_skip (exec_skp_of_ok hkey) Iff.rfl,
      by simpa only [ite_not] using exec_skip (exec_sknp_of_ok hkey) Bool.not_iff_not⟩
  · have hfault := keyIndex_fault hlarge
    rw [← hpolicy] at hfault
    exact ⟨⟨_, exec_keySkip_of_error (.inl rfl) hfault, rfl, (OnlyChanges.refl s).raise rfl⟩,
      ⟨_, exec_keySkip_of_error (.inr rfl) hfault, rfl, (OnlyChanges.refl s).raise rfl⟩⟩

end Sys2Proof
end

section
/-! The timer instructions (46_timers.md): the parts they change. -/

namespace Sys2Proof
open Sys2Proof.Machine

namespace OnlyChanges

variable {s t : State} {allowed : Part → Prop}

theorem setDt (h : OnlyChanges s t allowed) {b : Byte} (hdt : allowed .dt) :
    OnlyChanges s (t.setDt b) allowed := fun p hp => by
  cases p with
  | dt => exact absurd hdt hp
  | _ => exact h _ hp

theorem setSt (h : OnlyChanges s t allowed) {b : Byte} (hst : allowed .st) :
    OnlyChanges s (t.setSt b) allowed := fun p hp => by
  cases p with
  | st => exact absurd hst hp
  | _ => exact h _ hp

end OnlyChanges

/-- Settles O49: the rows of the opcode table, and one register or one timer written. -/
theorem timerInstructionsMoveBytes : Obligations.TimerInstructionsMoveBytes := by
  refine ⟨⟨rowIs_getElem 25, rowIs_getElem 27, rowIs_getElem 28⟩, fun s x => ⟨?_, ?_, ?_⟩⟩
  · exact ⟨rfl, _, rfl, s.setReg_reg_self x s.dt, s.setReg_onlyChanges x s.dt⟩
  · exact ⟨rfl, _, rfl, s.setDt_dt (s.reg x), (OnlyChanges.refl s).setDt rfl⟩
  · exact ⟨rfl, _, rfl, s.setSt_st (s.reg x), (OnlyChanges.refl s).setSt rfl⟩

end Sys2Proof
end

section
/-! The host's side of the interface (60_exceptions.md): every step answers, and what each host operation does to
the timers, to the keys and to the invariant; then the first step of a fresh machine. -/

namespace Sys2Proof.Machine

/-! ### Every step answers (R272) -/

/-- Every instruction has a meaning, and its faults are latched in the state that it answers. -/
theorem exec_answers (i : Instr) (s : State) : ∃ t, exec i s = .next t := by
  cases i with
  | ret =>
    cases hst : s.stack with
    | nil => exact ⟨_, exec_ret_of_nil hst⟩
    | cons top rest => exact ⟨_, exec_ret_of_cons hst⟩
  | call k =>
    cases hfull : s.stackFull with
    | true => exact ⟨_, exec_call_of_full hfull⟩
    | false => exact ⟨_, exec_call_of_room hfull⟩
  | skp x =>
    cases hkey : keyIndex s.cfg.keyIndexPolicy (s.reg x) with
    | ok k => exact ⟨_, exec_skp_of_ok hkey⟩
    | error kind => exact ⟨_, exec_keySkip_of_error (.inl rfl) hkey⟩
  | sknp x =>
    cases hkey : keyIndex s.cfg.keyIndexPolicy (s.reg x) with
    | ok k => exact ⟨_, exec_sknp_of_ok hkey⟩
    | error kind => exact ⟨_, exec_keySkip_of_error (.inr rfl) hkey⟩
  | ldVxK x =>
    by_cases hdown : ∃ k, s.key k = true
    · obtain ⟨k, drawn, hfirst, -⟩ := s.firstPressed_some hdown
      exact ⟨_, exec_ldVxK_of_firstPressed hfirst⟩
    · exact ⟨_, exec_ldVxK_of_up (by simpa using hdown)⟩
  | ldF x =>
    cases hchar : charAddress s.cfg.fontIndexPolicy (s.reg x) with
    | ok a => exact ⟨_, exec_ldF_of_ok hchar⟩
    | error kind => exact ⟨_, exec_ldF_of_error hchar⟩
  | _ => exact ⟨_, rfl⟩

/-! ### Timers and keys (R281, R284) -/

/-- The clamp at 0 is the subtraction of the naturals (D21). -/
theorem decrement_toNat (b : Byte) : (decrement b).toNat = b.toNat - 1 := by
  unfold decrement
  split <;> bv_omega

theorem keyEvent_of_key (k : Fin 16) (down : Bool) (s : State) :
    keyEvent k.val down s = .next (s.setKey k down) := dif_pos k.isLt

theorem keyEvent_of_le {n : Nat} (h : 16 ≤ n) (down : Bool) (s : State) :
    keyEvent n down s = .refused (.noSuchKey n) := dif_neg (by omega)

/-- The effect of a key event on one key. -/
theorem State.setKey_key_self (s : State) (k : Fin 16) (down : Bool) : (s.setKey k down).key k = down := by
  rw [State.setKey_key, if_pos rfl]

theorem State.setKey_key_of_ne (s : State) (down : Bool) {j k : Fin 16} (h : j ≠ k) :
    (s.setKey k down).key j = s.key j := by
  rw [State.setKey_key, if_neg h]

/-! ### Images and refusals (R312, R314) -/

/-- A `LOAD` that goes through has an image that fits, and answers the reset machine with the image in it. -/
theorem loadImage_next {image : List Byte} {origin : Nat} {s t : State} (h : loadImage image origin s = .next t) :
    origin + image.length ≤ s.cfg.memSize
      ∧ t = (s.afterReset.memWriteAll origin image).setPc (BitVec.ofNat 16 origin) := by
  unfold loadImage at h
  split at h <;> cases h
  exact ⟨by omega, rfl⟩

/-- An operation that answers no next state leaves the machine as it was. -/
theorem after_cases (s : State) (op : HostOp) : perform op s = .next (s.after op) ∨ s.after op = s := by
  unfold State.after
  cases perform op s with
  | next t => exact .inl rfl
  | fault r => exact .inr rfl
  | refused r => exact .inr rfl

end Sys2Proof.Machine

namespace Sys2Proof
open Sys2Proof.Machine

/-- The part that a key event changes. -/
theorem OnlyChanges.setKey {s t : State} {allowed : Part → Prop} (h : OnlyChanges s t allowed) {k : Fin 16}
    {down : Bool} (hk : allowed .keys) : OnlyChanges s (t.setKey k down) allowed := fun p hp => by
  cases p with
  | keys => exact absurd hk hp
  | _ => exact h _ hp

/-- Settles O11: the tests before `Execute` answer a next state, and so does every instruction that runs. -/
theorem everyStepAnswersANextState : Obligations.EveryStepAnswersANextState := by
  intro s
  cases hfetch : fetch s with
  | halted => exact ⟨_, step_halted hfetch⟩
  | exits => exact ⟨_, step_exits hfetch⟩
  | faults kind op => exact ⟨_, step_faults hfetch⟩
  | runs i =>
    obtain ⟨u, hu⟩ := exec_answers i s
    exact ⟨_, step_runs s u i hfetch hu⟩

/-- Settles O50: each timer is decremented by itself. -/
theorem ticksDecrementTheTimers : Obligations.TicksDecrementTheTimers := by
  refine fun s => ⟨⟨s.tick, rfl, ?_⟩, ⟨s.decDt, rfl, ?_⟩, ⟨s.decSt, rfl, ?_⟩⟩
  · exact ⟨decrement_toNat s.dt, decrement_toNat s.st, ((OnlyChanges.refl s).setDt (.inl rfl)).setSt (.inr rfl)⟩
  · exact ⟨decrement_toNat s.dt, (OnlyChanges.refl s).setDt rfl⟩
  · exact ⟨decrement_toNat s.st, (OnlyChanges.refl s).setSt rfl⟩

/-- Settles O51: a key event on a key, down and up, and on any other index. -/
theorem keyEventsSetOneKey : Obligations.KeyEventsSetOneKey := by
  intro s
  have hset : ∀ (k : Fin 16) (down : Bool), ∃ t, keyEvent k.val down s = .next t ∧ t.key k = down
      ∧ (∀ j, j ≠ k → t.key j = s.key j) ∧ OnlyChanges s t (fun p => p = .keys) := fun k down =>
    ⟨_, keyEvent_of_key k down s, s.setKey_key_self k down, fun _ => s.setKey_key_of_ne down,
      (OnlyChanges.refl s).setKey rfl⟩
  exact ⟨fun k => hset k true, fun k => hset k false,
    fun _ hn => ⟨keyEvent_of_le hn true s, keyEvent_of_le hn false s⟩⟩

/-! ### The invariant (R290) -/

/-- The invariant does not speak of the timers, and neither it nor a fetch reads the keys. -/
theorem Inv.setTimersAndKeys {s : State} (h : Inv s) (dt st : Byte) (keys : Vector Bool 16) :
    Inv (s.setTimersAndKeys dt st keys) where
  cfg := h.cfg
  mem := h.mem
  stack := h.stack
  pc := h.pc
  returns := h.returns
  block := h.block
  latches := h.latches

/-- A machine that is reset, given an image and started inside memory meets the invariant: its stack is empty,
nothing is latched and it does not wait (70_reset_and_hazards.md R310, R312). -/
theorem inv_of_loaded {s : State} (hlegal : s.cfg.legal = true) (image : List Byte) {origin : Nat}
    (horigin : origin ≤ s.cfg.memSize) :
    Inv ((s.afterReset.memWriteAll origin image).setPc (BitVec.ofNat 16 origin)) := by
  obtain ⟨hlow, hhigh, -⟩ := legal_sizes hlegal
  have hmem : Memory.wf s.cfg (s.afterReset.memWriteAll origin image).mem = true :=
    s.afterReset.memWriteAll_wf origin image (Memory.wf_nil _) (by simp only [State.afterReset_cfg]; omega)
  rw [State.memWriteAll_eq]
  exact {
    cfg := hlegal
    mem := hmem
    stack := (stackBounded_iff _).mpr fun _ _ => Nat.zero_le _
    pc := .inr ((Nat.mod_le origin _).trans (Nat.le_add_right_of_le horigin))
    returns := fun _ ha => absurd ha List.not_mem_nil
    block := fun hb => absurd hb Bool.false_ne_true
    latches := ⟨.inl rfl, .inl rfl⟩ }

/-- `RESET` is the loading of an empty image at `LOAD_ORIGIN`. -/
theorem inv_of_afterReset {s : State} (hlegal : s.cfg.legal = true) : Inv s.afterReset :=
  inv_of_loaded hlegal [] (legal_sizes hlegal).2.2

theorem Inv.perform {s t : State} {op : HostOp} (h : Inv s) (hop : perform op s = .next t) : Inv t := by
  cases op with
  | step => exact everyStepKeepsTheInvariant s t h hop
  | tick | decDt | decSt => cases hop; exact h.setTimersAndKeys _ _ _
  | keyDown k | keyUp k =>
    obtain ⟨j, hset⟩ | hrefused := keyEvent_cases k _ s
    · cases hset.symm.trans hop; exact h.setTimersAndKeys _ _ _
    · cases hrefused.symm.trans hop
  | reset => cases hop; exact inv_of_afterReset h.cfg
  | load image origin =>
    obtain ⟨hfits, rfl⟩ := loadImage_next hop
    exact inv_of_loaded h.cfg image (by omega)

/-- Settles O16: an operation goes through or leaves the state as it was. -/
theorem everyHostOperationKeepsTheInvariant : Obligations.EveryHostOperationKeepsTheInvariant := by
  intro s op h
  obtain hnext | hsame := after_cases s op
  · exact h.perform hnext
  · rw [hsame]; exact h

/-! ### The first step of a fresh machine (R292) -/

/-- Above the font a machine at its reset values fetches the sentinel, unless it starts at the end of memory. -/
theorem fetch_exits_of_atResetValues {c : Config} {s : State} (h : AtResetValues c s) (hfont : 80 ≤ c.loadOrigin)
    (hstraddle : c.loadOrigin + 1 ≠ c.memSize) : fetch s = .exits := by
  refine (fetch_exits_iff s).mpr ⟨h.fault, h.exit, ?_⟩
  rw [h.cfg, h.pc]
  by_cases hend : c.memSize ≤ c.loadOrigin
  · exact .inl hend
  · refine .inr ⟨by omega, BitVec.eq_of_toNat_eq ?_⟩
    rw [s.fetchWord_toNat, h.pc, h.rest _ hfont (by omega), h.rest _ (by omega) (by omega)]
    rfl

/-- Settles O54: both machines are at their reset values. -/
theorem aFreshMachineExitsAtItsFirstStep : Obligations.AFreshMachineExitsAtItsFirstStep :=
  ⟨fun _ hlegal hfont hstraddle =>
      step_exits (fetch_exits_of_atResetValues (atResetValues_constructed hlegal _ _) hfont hstraddle),
    step_exits (fetch_exits_of_atResetValues (atResetValues_constructed (by decide) _ _) (by decide) (by decide))⟩

end Sys2Proof
end

section
/-! Canonical memory (20_memory.md, log 8): what a canonical list names is what reads otherwise than reset left it, so
that reading decides the list. -/

namespace Sys2Proof.Machine

variable {c : Config} {m : Memory}

/-- The canonical form, entry by entry: the addresses rise, and each entry lies below `MEM_SIZE` and says something
that reset does not. -/
theorem Memory.wf_iff : Memory.wf c m = true ↔
    m.Pairwise (InvImage (· < ·) Prod.fst) ∧ ∀ cell ∈ m, cell.1 < c.memSize ∧ cell.2 ≠ c.resetByte cell.1 := by
  induction m with
  | nil => simp [Memory.wf]
  | cons cell rest ih =>
    simp only [Memory.wf, Bool.and_eq_true, decide_eq_true_eq, List.all_eq_true, ih, List.pairwise_cons,
      List.forall_mem_cons]
    constructor
    · rintro ⟨⟨hcell, hbelow⟩, hrising, hrest⟩
      exact ⟨⟨hbelow, hrising⟩, hcell, hrest⟩
    · rintro ⟨⟨hbelow, hrising⟩, hcell, hrest⟩
      exact ⟨⟨hcell, hbelow⟩, hrising, hrest⟩

/-- No address is listed twice, so a listed byte is the one that is read. -/
theorem Memory.read_of_mem {cell : Host.Cell} (hrising : m.Pairwise (InvImage (· < ·) Prod.fst)) (h : cell ∈ m) :
    Memory.read c m cell.1 = cell.2 := by
  induction m with
  | nil => cases h
  | cons top rest ih =>
    obtain ⟨hbelow, hrest⟩ := List.pairwise_cons.mp hrising
    obtain rfl | hmem := List.mem_cons.mp h
    · exact if_pos rfl
    · exact (if_neg (Nat.ne_of_gt (hbelow cell hmem))).trans (ih hrest hmem)

/-- A byte that is not what reset left is listed. -/
theorem Memory.mem_of_read_ne {a : Nat} (h : Memory.read c m a ≠ c.resetByte a) : (a, Memory.read c m a) ∈ m := by
  induction m with
  | nil => exact absurd rfl h
  | cons top rest ih =>
    by_cases ha : a = top.1
    · subst ha; simp [Memory.read]
    · simp only [Memory.read, if_neg ha] at h ⊢
      exact List.mem_cons_of_mem _ (ih h)

/-- The entries of a canonical memory, by reading it. -/
theorem Memory.mem_iff (h : Memory.wf c m = true) (cell : Host.Cell) : cell ∈ m ↔
    cell.1 < c.memSize ∧ cell.2 ≠ c.resetByte cell.1 ∧ Memory.read c m cell.1 = cell.2 := by
  obtain ⟨hrising, hcells⟩ := Memory.wf_iff.mp h
  constructor
  · intro hmem
    exact ⟨(hcells cell hmem).1, (hcells cell hmem).2, Memory.read_of_mem hrising hmem⟩
  · rintro ⟨-, hne, hread⟩
    have hmem := Memory.mem_of_read_ne (hread ▸ hne)
    rwa [hread] at hmem

end Sys2Proof.Machine

namespace Sys2Proof
open Sys2Proof.Machine

/-- Settles O18: lists with rising addresses are equal when they have the same entries. -/
theorem memoriesThatReadAlikeAreEqual : Obligations.MemoriesThatReadAlikeAreEqual := by
  intro c m n hm hn hread
  refine (Memory.wf_iff.mp hm).1.eq_of_mem_iff (Memory.wf_iff.mp hn).1 fun cell => ?_
  rw [Memory.mem_iff hm, Memory.mem_iff hn]
  exact and_congr_right fun hlt => by rw [hread cell.1 hlt]

end Sys2Proof
end

section
/-! Construction, `LOAD` and sample words: the fresh machine meets the invariant (70_reset_and_hazards.md R311), what
a `LOAD` leaves (R312, R314), and nine encodings read back (95_test_vectors.md). -/

namespace Sys2Proof.Machine

variable {s : State} {image : List Byte} {origin : Nat}

theorem loadImage_of_not_fits (h : s.cfg.memSize < origin + image.length) :
    loadImage image origin s = .refused .imageDoesNotFit := if_pos h

theorem loadImage_of_fits (h : origin + image.length ≤ s.cfg.memSize) :
    loadImage image origin s = .next ((s.afterReset.memWriteAll origin image).setPc (BitVec.ofNat 16 origin)) :=
  if_neg (Nat.not_lt.mpr h)

/-- The origin of a `LOAD` is the one given, or by default `LOAD_ORIGIN` (70_reset_and_hazards.md R312). -/
theorem originOf_eq {c : Config} {given : Option Nat}
    (h : given = some origin ∨ (given = none ∧ origin = c.loadOrigin)) : originOf c given = origin := by
  obtain rfl | ⟨rfl, rfl⟩ := h <;> rfl

/-- An image that fits is stored without wrapping round: the bytes that change are the ones it covers. -/
theorem onlyChanges_memWriteAll_of_fits (hsize : 0 < s.cfg.memSize) (hwf : Memory.wf s.cfg s.mem = true)
    (hfits : origin + image.length ≤ s.cfg.memSize) : OnlyChanges s (s.memWriteAll origin image)
      (fun p => ∃ a, p = .byte a ∧ origin ≤ a ∧ a < origin + image.length) :=
  (Frame.memWriteAll hwf hsize fun j hj =>
    ⟨origin + j, by rw [Nat.mod_eq_of_lt (by omega)], by omega, by omega⟩).only

end Sys2Proof.Machine

namespace Sys2Proof
open Sys2Proof.Machine

/-- Settles O14: a constructed machine is one that `RESET` leaves as it is. -/
theorem constructionMeetsTheInvariant : Obligations.ConstructionMeetsTheInvariant :=
  ⟨fun c hlegal => inv_of_afterReset (s := State.constructed c) hlegal,
    inv_of_afterReset (s := State.reset) (by decide)⟩

/-- Settles O53: the image is stored over the canonical memory that `RESET` leaves. -/
theorem loadPlacesTheImage : Obligations.LoadPlacesTheImage := by
  intro s image given origin hlegal horigin
  obtain ⟨hlow, hhigh, -⟩ := legal_sizes hlegal
  have hsize : 0 < s.cfg.memSize := by omega
  have hload : perform (.load image given) s = loadImage image origin s :=
    congrArg (loadImage image · s) (originOf_eq horigin)
  refine ⟨fun hlong => hload.trans (loadImage_of_not_fits hlong), fun hfits =>
    ⟨_, hload.trans (loadImage_of_fits hfits), Nat.mod_eq_of_lt (by omega), fun j hj => ?_, ?_⟩⟩
  · rw [State.setPc_memRead]
    exact s.afterReset.memWriteAll_read origin j image (Memory.wf_nil _) (by rw [State.afterReset_cfg]; omega) hj
  · exact ((onlyChanges_memWriteAll_of_fits (s := s.afterReset) hsize (Memory.wf_nil _) hfits).mono
      fun _ => .inr).setPc (.inl rfl)

/-- Settles O1: each word is the encoding of its instruction. -/
theorem sampleWordsDecode : Obligations.SampleWordsDecode :=
  ⟨decodeOfEncodeIsIdentity .cls, decodeOfEncodeIsIdentity (.ldI 0xC1B), decodeOfEncodeIsIdentity (.ldImm 2 0xAA),
    decodeOfEncodeIsIdentity (.addReg 0xA 0xB), decodeOfEncodeIsIdentity (.drw 1 2 0xF),
    decodeOfEncodeIsIdentity (.seImm 0xF 0xAB), decodeOfEncodeIsIdentity (.skp 2),
    decodeOfEncodeIsIdentity (.loadRegs 2), decodeOfEncodeIsIdentity (.scd 7)⟩

end Sys2Proof
end
